-- ==== Sys2Proof/Word.lean ====
section
/-! DEFINITION. The word types of IPV4CORE: the byte of a frame or buffer (R11), the 16-bit header field (R71), the 32-bit
register and bus word (R32, R70) and the 20-bit CFG byte address (R70). All values are unsigned (R9). -/

namespace Sys2Proof

/-- One byte of a frame, payload, header or buffer (R11). -/
abbrev Byte := BitVec 8

/-- A 16-bit header field (R71), also the width of ID_NEXT.IDENT (R42) and of a command's LEN (R111). -/
abbrev Half := BitVec 16

/-- A 32-bit register value, CFG data word or command word (R32, R110, R115). -/
abbrev Word := BitVec 32

/-- A 20-bit CFG byte address (R70). -/
abbrev CfgAddr := BitVec 20

end Sys2Proof
end

