-- ==== Sys2Proof/Syntax.lean ====
section
/-! DEFINITION. The instructions of IPV4CORE: one constructor for each row of spec/opcode_table.json. Two are CFG bus
transactions (R260, R261), three are commands that a CFG write to CMD starts (R110 to R113, R266). Every operand has the exact
width of its field, so an operand out of range cannot be written. -/

namespace Sys2Proof

/-- An instruction of IPV4CORE. -/
inductive Instr where
  /-- CFG_READ (R115, R260): STRB is carried and ignored, ADDR is the byte address. -/
  | cfgRead (strb : BitVec 4) (addr : CfgAddr)
  /-- CFG_WRITE (R115, R261): the strobe, the byte address and the data word. -/
  | cfgWrite (strb : BitVec 4) (addr : CfgAddr) (wdata : Word)
  /-- RX_FRAME (R111, R170): the received frame length N. -/
  | rxFrame (len : Half)
  /-- TX_SEND (R112, R230): the protocol number and the payload length L. -/
  | txSend (proto : Byte) (len : Half)
  /-- TX_BUILD (R113, R212): the more-fragments flag, the protocol number and the payload length. -/
  | txBuild (mf : Bool) (proto : Byte) (len : Half)
  deriving DecidableEq, Repr

end Sys2Proof
end

