-- ==== Sys2Proof/WellFormed.lean ====
section
/-! DEFINITION. Which instruction terms are well-formed. The operand widths are in the types, so one check is left: a full-word
CFG_WRITE to CMD whose data is a legal command word IS that command (R116, R266), and is written as the command. The legality
test is by the match and mask values of spec/opcode_table.json, apart from the field tests of the decoder. -/

namespace Sys2Proof

/-- The CFG address of CMD (R32, R44). -/
def cmdAddr : CfgAddr := 0x1C

/-- The command word `w` matches one of the three command rows of the opcode table: RX_FRAME match 0x10000000 mask 0xFFFF0000
(R111), TX_SEND match 0x20000000 mask 0xFF000000 (R112), TX_BUILD match 0x30000000 mask 0xFE000000 (R113). -/
def isCommandWord (w : Word) : Bool :=
  w &&& 0xFFFF0000 == 0x10000000 || w &&& 0xFF000000 == 0x20000000 || w &&& 0xFE000000 == 0x30000000

/-- A well-formed instruction: any but a full-word CFG_WRITE to CMD of a word that is one of the three commands. -/
def Instr.wellFormed : Instr → Bool
  | .cfgRead _ _ => true
  | .cfgWrite strb addr wdata => !(strb == 0xF && addr == cmdAddr && isCommandWord wdata)
  | .rxFrame _ => true
  | .txSend _ _ => true
  | .txBuild _ _ _ => true

end Sys2Proof
end

