-- ==== Sys2Proof/Decode.lean ====
section
/-! DEFINITION. Decoding and encoding. A decoder handles two levels (R116): a CFG request is a read or a write by its WE bit
(R115), and a full-word write to CMD is decoded as a command word (R110 to R114, R266). Every 25-bit request is one of the two
(R115); a command word may be illegal, and `decodeCommand` rejects it by name (R114). -/

namespace Sys2Proof

/-- Why a command word is illegal (R114). -/
inductive CommandError where
  /-- OP is 0x0 or 0x4 to 0xF. -/
  | reservedOp (op : BitVec 4)
  /-- OP is 0x1, 0x2 or 0x3 and a reserved bit of the word is not 0. -/
  | reservedBits (op : BitVec 4)
  deriving DecidableEq, Repr

/-- `OP = cmd[31:28]` (R110). -/
def commandOp (w : Word) : BitVec 4 := w.extractLsb' 28 4

/-- `LEN = cmd[15:0]` (R111, R112, R113). -/
def commandLen (w : Word) : Half := w.extractLsb' 0 16

/-- `PROTO = cmd[23:16]` (R112, R113). -/
def commandProto (w : Word) : Byte := w.extractLsb' 16 8

/-- `MF = cmd[24]` (R113). -/
def commandMf (w : Word) : Bool := w.getLsbD 24

/-- The command that a word written to CMD encodes (R110 to R114, R266). -/
def decodeCommand (w : Word) : Except CommandError Instr :=
  if commandOp w = 1 then
    if w.extractLsb' 16 12 = 0 then .ok (.rxFrame (commandLen w)) else .error (.reservedBits 1)
  else if commandOp w = 2 then
    if w.extractLsb' 24 4 = 0 then .ok (.txSend (commandProto w) (commandLen w)) else .error (.reservedBits 2)
  else if commandOp w = 3 then
    if w.extractLsb' 25 3 = 0 then .ok (.txBuild (commandMf w) (commandProto w) (commandLen w))
    else .error (.reservedBits 3)
  else .error (.reservedOp (commandOp w))

/-- `WE`, bit 24 of a CFG request (R115). -/
def requestWe (req : BitVec 25) : Bool := req.getLsbD 24

/-- `STRB`, bits [23:20] of a CFG request (R115). -/
def requestStrb (req : BitVec 25) : BitVec 4 := req.extractLsb' 20 4

/-- `ADDR`, bits [19:0] of a CFG request (R115). -/
def requestAddr (req : BitVec 25) : CfgAddr := req.extractLsb' 0 20

/-- The CFG write with the given operands: the command where it is a full-word write of a legal command word to CMD (R266),
the plain CFG_WRITE otherwise. -/
def decodeWrite (strb : BitVec 4) (addr : CfgAddr) (wdata : Word) : Instr :=
  if strb = 0xF ∧ addr = cmdAddr then
    match decodeCommand wdata with
    | .ok command => command
    | .error _ => .cfgWrite strb addr wdata
  else .cfgWrite strb addr wdata

/-- The instruction that a CFG transaction is (R115, R116): `wdata` is the data of a write; a read has none. -/
def decodeRequest (req : BitVec 25) (wdata : Word) : Instr :=
  if requestWe req then decodeWrite (requestStrb req) (requestAddr req) wdata
  else .cfgRead (requestStrb req) (requestAddr req)

/-- The packed request word WE[24] STRB[23:20] ADDR[19:0] (R115). -/
def encodeRequest (we : Bool) (strb : BitVec 4) (addr : CfgAddr) : BitVec 25 :=
  BitVec.ofBool we ++ strb ++ addr

/-- The request of a full-word write to CMD: 0x1F0001C (R115, R130). -/
def cmdWriteRequest : BitVec 25 := encodeRequest true 0xF cmdAddr

/-- The RX_FRAME command word (R111): 0001, twelve zeros, LEN. -/
def rxFrameWord (len : Half) : Word := (0x1 : BitVec 4) ++ (0 : BitVec 12) ++ len

/-- The TX_SEND command word (R112): 0010, four zeros, PROTO, LEN. -/
def txSendWord (proto : Byte) (len : Half) : Word := (0x2 : BitVec 4) ++ (0 : BitVec 4) ++ proto ++ len

/-- The TX_BUILD command word (R113): 0011, three zeros, MF, PROTO, LEN. -/
def txBuildWord (mf : Bool) (proto : Byte) (len : Half) : Word :=
  (0x3 : BitVec 4) ++ (0 : BitVec 3) ++ BitVec.ofBool mf ++ proto ++ len

/-- The CFG transaction of an instruction: its request word and its data word (0 for a read, which has none). -/
def encode : Instr → BitVec 25 × Word
  | .cfgRead strb addr => (encodeRequest false strb addr, 0)
  | .cfgWrite strb addr wdata => (encodeRequest true strb addr, wdata)
  | .rxFrame len => (cmdWriteRequest, rxFrameWord len)
  | .txSend proto len => (cmdWriteRequest, txSendWord proto len)
  | .txBuild mf proto len => (cmdWriteRequest, txBuildWord mf proto len)

/-- The bits `w` of an instruction as the opcode table numbers them, cut to the `nbits` the table gives the row. -/
def tableBits (nbits w : Nat) : Nat := w % 2 ^ nbits

/-- The first 32 bits of a table word are a command word, not a packed CFG request: a request has 25 bits, so its bits 31..25
are 0, and each of the three commands has bit 28 or bit 29 set (R111 to R115; log 9). -/
def tableWordIsCommand (nbits w : Nat) : Bool := decide (2 ^ 25 ≤ tableBits nbits w % 2 ^ 32)

/-- The CFG transaction that carries a table word: a command word is written whole to CMD (R110); a request word is the request
itself, with the bits above its 32 as the data of a write, which are 0 where the table gives none (log 9). -/
def tableTransaction (nbits w : Nat) : BitVec 25 × Word :=
  if tableWordIsCommand nbits w then (cmdWriteRequest, BitVec.ofNat 32 (tableBits nbits w))
  else (BitVec.ofNat 25 (tableBits nbits w), BitVec.ofNat 32 (tableBits nbits w / 2 ^ 32))

/-- The instruction that the decoder reads from a word numbered as spec/opcode_table.json numbers it (log 9): none where the
word is an illegal command word (R114). -/
def decodeTableWord (nbits w : Nat) : Option Instr :=
  if tableWordIsCommand nbits w then
    match decodeCommand (BitVec.ofNat 32 (tableBits nbits w)) with
    | .ok command => some command
    | .error _ => none
  else some (decodeRequest (tableTransaction nbits w).1 (tableTransaction nbits w).2)

end Sys2Proof
end

