-- ==== Sys2Proof/Config.lean ====
section
/-! DEFINITION. The implementation parameters of R7: "A model takes each parameter as a configuration field." The operations of
the model take a `Params`; `exec` and `step` run with `Config.ipv4core`, whose fields are the values R7 gives this hardware.
The one parameter R7 leaves OPEN, P_ZERO_LEN_SEND, is an opaque constant: no proof can see which value it has, so every claim
holds for both (R238; log 6). -/

namespace Sys2Proof

/-- P_ZERO_LEN_SEND: what TX_SEND with a zero-length payload emits (R7, R238). -/
inductive ZeroLenSend where
  /-- `ONE_EMPTY`: one header-only frame. -/
  | oneEmpty
  /-- `NONE`: no frame. -/
  | noFrame
  deriving DecidableEq, Repr, Inhabited

/-- The parameters of R7, apart from the fixed sizes and widths. -/
structure Params where
  /-- `P_MTU`: the link's maximum transmission unit, in bytes. -/
  mtu : Nat
  /-- `P_DEFAULT_TTL`: the TTL written in every outbound header. -/
  defaultTtl : Byte
  /-- `P_ZERO_LEN_SEND`. -/
  zeroLenSend : ZeroLenSend
  /-- `PROTO_ICMP`. -/
  protoIcmp : Byte
  /-- `PROTO_UDP`. -/
  protoUdp : Byte
  /-- `ICMP_CODE_PROTO_UNREACH`. -/
  icmpCodeProtoUnreach : Byte
  deriving DecidableEq, Repr

/-- `MAXFRAG = P_MTU - 20`: the largest fragment payload (R7, R231). -/
def Params.maxFrag (p : Params) : Nat := p.mtu - 20

/-- The configurations that are an IPV4CORE: 28 <= P_MTU <= 65535 and (P_MTU - 20) mod 8 = 0 (R7, R8). -/
abbrev Params.admitted (p : Params) : Prop :=
  28 ≤ p.mtu ∧ p.mtu ≤ 65535 ∧ (p.mtu - 20) % 8 = 0

/-- The number of bytes of RXBUF and of TXBUF: 65,536 each, fixed (R7, R49, R50). -/
def bufferBytes : Nat := 65536

/-- The value of P_ZERO_LEN_SEND, which the spec leaves OPEN (R7, R238): nothing constrains it (log 6). -/
opaque Config.zeroLenSend : ZeroLenSend

/-- The configuration of this hardware: the values of R7's table (log 7). -/
def Config.ipv4core : Params where
  mtu := 1500
  defaultTtl := 64
  zeroLenSend := Config.zeroLenSend
  protoIcmp := 1
  protoUdp := 17
  icmpCodeProtoUnreach := 2

end Sys2Proof
end

