-- ==== Sys2Proof/Machine/State.lean ====
section
/-! DEFINITION. The state of IPV4CORE as plain data: every register of R32 that has storage, the two buffers (R49, R50), the
output trace (R51), and the model's own two fields for the other end of the CFG bus (logs 1 and 2). Reserved bits of a register
have no storage: they read as 0 and ignore writes (R32). -/

namespace Sys2Proof.Machine

/-- A 4-byte IPv4 address, first byte on the wire first (R72). -/
structure IpAddr where
  b0 : Byte
  b1 : Byte
  b2 : Byte
  b3 : Byte
  deriving DecidableEq, Repr

/-- A record of one of the three output streams (R51, R120 to R123). -/
inductive Record where
  /-- TX_OUT (R120): a frame for address resolution and the link. -/
  | tx (nextHop : IpAddr) (frame : List Byte)
  /-- DISP_OUT (R121): a dispatch call. -/
  | disp (proto : Byte) (src : IpAddr) (payload : List Byte)
  /-- ICMP_OUT (R122): an "ICMP unreachable" call. -/
  | icmp (notifyDst : IpAddr) (code : Byte) (datagram : List Byte)
  deriving DecidableEq, Repr

/-- The values of RESULT.CODE (R39): "Every value not listed is never produced." -/
inductive ResultCode where
  | none
  | rxDispatched
  | rxUnreachDispatched
  | rxDropShort
  | rxDropHeader
  | rxDropChecksum
  | rxDropDest
  | txSent
  | txBuilt
  | faultHdrOverrun
  | faultStripUnderflow
  | cmdRejected
  deriving DecidableEq, Repr

/-- RESULT (R38): the outcome of the last command. -/
structure Result where
  code : ResultCode
  count : Half
  deriving DecidableEq, Repr

/-- STATUS (R36): four sticky bits. -/
structure Status where
  hdrOverrun : Bool
  stripUnderflow : Bool
  cmdErr : Bool
  busErr : Bool
  deriving DecidableEq, Repr

/-- BUILD_ARG (R47): the two operands of TX_BUILD that do not fit in the command word. -/
structure BuildArg where
  ident : Half
  offset : BitVec 13
  deriving DecidableEq, Repr

/-- A move of the host (R280, R330, R345): a CFG transaction, as its packed request (R115) and the data of a write, or a pulse of
the reset input between transactions. -/
inductive HostEvent where
  | cfg (request : BitVec 25) (wdata : Word)
  | reset
  deriving DecidableEq, Repr

/-- The contents of a buffer: (offset, byte) pairs, offsets strictly rising. An offset that is not listed has not been written
since reset and has no value (R90, R331; log 5). -/
abbrev Memory := List Host.Cell

/-- The hardware faults that `raise Fault(K)` of R12 and R300 can raise. -/
inductive HwFault where
  /-- The header runs past the received frame (R177). -/
  | hdrOverrun
  /-- The header runs past the declared datagram (R184). -/
  | stripUnderflow
  deriving DecidableEq, Repr

/-- The state of the machine. -/
structure State where
  /-- CTRL.REG (R34, R35): registered as the IPv4 handler. -/
  ctrlReg : Bool
  /-- STATUS (R36). -/
  status : Status
  /-- RESULT (R38). -/
  result : Result
  /-- HOST_IP (R41). -/
  hostIp : Word
  /-- ID_NEXT.IDENT (R42). -/
  idNext : Half
  /-- TX_DST (R43). -/
  txDst : Word
  /-- BUILD_ARG (R47). -/
  buildArg : BuildArg
  /-- RXBUF (R49). -/
  rxbuf : Memory
  /-- TXBUF (R50). -/
  txbuf : Memory
  /-- The output trace, oldest record first (R51, R84). -/
  trace : List Record
  /-- The model's own: the words CFG_READs returned to the host, oldest first (R260; log 2). -/
  responses : List Word
  /-- The model's own: the host's remaining moves, the next one first (R345; log 1). -/
  host : List HostEvent
  deriving DecidableEq, Repr

/-- Why the machine stops with a fault. -/
inductive Fault where
  /-- UNDEF_READ (R90, R302): CFG_READ, RX_FRAME, TX_SEND or TX_BUILD read a buffer byte that nothing has written since reset.
  Safe: the hardware goes on with a value the spec does not fix, the model supplies none (log 5). -/
  | undefRead
  deriving DecidableEq, Repr

/-- Why the machine gives an instruction no meaning. -/
inductive Refusal where
  /-- An arm of `exec` that has no meaning yet. Safe: nothing is claimed of the instruction. No arm uses it. -/
  | notModelled (mnemonic : String)
  deriving DecidableEq, Repr

/-- What an operation of the machine answers. -/
abbrev Effect := Host.Outcome State Fault Refusal

/-- The machine right after reset (R61, R330, R331, R334). The host has no moves yet: a program is the host's (R345; log 1). -/
def State.reset : State where
  ctrlReg := false
  status := { hdrOverrun := false, stripUnderflow := false, cmdErr := false, busErr := false }
  result := { code := .none, count := 0 }
  hostIp := 0
  idNext := 0
  txDst := 0
  buildArg := { ident := 0, offset := 0 }
  rxbuf := []
  txbuf := []
  trace := []
  responses := []
  host := []

end Sys2Proof.Machine
end

