-- ==== Sys2Proof/Machine/Flags.lean ====
section
/-! DEFINITION. The status information of IPV4CORE: STATUS (R36, R37) and RESULT (R38 to R40) as the words the host reads, and
the setting of their bits. IPV4CORE has no condition codes (R52). -/

namespace Sys2Proof.Machine

/-- The code values of R39. -/
def ResultCode.toByte : ResultCode → Byte
  | .none => 0x00
  | .rxDispatched => 0x01
  | .rxUnreachDispatched => 0x02
  | .rxDropShort => 0x10
  | .rxDropHeader => 0x11
  | .rxDropChecksum => 0x12
  | .rxDropDest => 0x13
  | .txSent => 0x20
  | .txBuilt => 0x21
  | .faultHdrOverrun => 0x30
  | .faultStripUnderflow => 0x31
  | .cmdRejected => 0x3F

/-- RESULT as read (R38): COUNT in [31:16], [15:8] reads 0, CODE in [7:0]. -/
def Result.toWord (r : Result) : Word := r.count ++ (0 : Byte) ++ r.code.toByte

/-- STATUS as read (R36): BUS_ERR, CMD_ERR, STRIP_UNDERFLOW, HDR_OVERRUN in bits 3 to 0, [31:4] reads 0. -/
def Status.toWord (f : Status) : Word :=
  (0 : BitVec 28) ++ BitVec.ofBool f.busErr ++ BitVec.ofBool f.cmdErr ++ BitVec.ofBool f.stripUnderflow
    ++ BitVec.ofBool f.hdrOverrun

/-- The STATUS bit of a fault set, every other bit kept (R36, R37). -/
def Status.setFault (f : Status) : HwFault → Status
  | .hdrOverrun => { f with hdrOverrun := true }
  | .stripUnderflow => { f with stripUnderflow := true }

/-- The RESULT code of a fault (R39, R301). -/
def HwFault.code : HwFault → ResultCode
  | .hdrOverrun => .faultHdrOverrun
  | .stripUnderflow => .faultStripUnderflow

/-- STATUS.CMD_ERR set, every other bit kept (R36, R266). -/
def Status.setCmdErr (f : Status) : Status := { f with cmdErr := true }

/-- STATUS.BUS_ERR set, every other bit kept (R36, R262). -/
def Status.setBusErr (f : Status) : Status := { f with busErr := true }

end Sys2Proof.Machine
end

