-- ==== Sys2Proof/Machine/Operands.lean ====
section
/-! DEFINITION. Operand forms: byte sequences and their 16-bit fields in network byte order (R11, R71), IPv4 addresses (R72),
CFG byte lanes (R73), the fields of a received header (R100 to R106), and the register operands BUILD_ARG (R47). -/

namespace Sys2Proof.Machine

/-- `b[i]` (R11). It is used for `i < len(b)` only; past the end it reads 0. -/
def byteAt (b : List Byte) (i : Nat) : Byte := b.getD i 0

/-- `be16(b, i)`: the big-endian 16-bit field at offset `i` (R11, R71). -/
def be16 (b : List Byte) (i : Nat) : Half := byteAt b i ++ byteAt b (i + 1)

/-- `BE16(v)`: the two bytes of `v`, high byte first (R11, R71). -/
def toBe16 (v : Half) : List Byte := [v.extractLsb' 8 8, v.extractLsb' 0 8]

/-- The four bytes of an address in wire order (R72). -/
def IpAddr.toList (a : IpAddr) : List Byte := [a.b0, a.b1, a.b2, a.b3]

/-- `ipbytes(r)`: bits [31:24] are the first byte on the wire (R72). -/
def ipBytes (r : Word) : IpAddr where
  b0 := r.extractLsb' 24 8
  b1 := r.extractLsb' 16 8
  b2 := r.extractLsb' 8 8
  b3 := r.extractLsb' 0 8

/-- The address `b[i..i+4)` (R72, R106). -/
def addrAt (b : List Byte) (i : Nat) : IpAddr where
  b0 := byteAt b i
  b1 := byteAt b (i + 1)
  b2 := byteAt b (i + 2)
  b3 := byteAt b (i + 3)

/-- Lane `k` of a CFG data word: bits [8k+7:8k] (R73). -/
def lane (w : Word) (k : Nat) : Byte := w.extractLsb' (8 * k) 8

/-- `word(B, o) = B[o] | B[o+1] << 8 | B[o+2] << 16 | B[o+3] << 24` (R73, R264), from the four bytes. -/
def wordOfLanes (b0 b1 b2 b3 : Byte) : Word := b3 ++ b2 ++ b1 ++ b0

/-- The fields of a received header (R106). -/
structure InboundHeader where
  version : BitVec 4
  ihl : BitVec 4
  tos : Byte
  totalLength : Half
  ident : Half
  flagsFrag : Half
  ttl : Byte
  proto : Byte
  checksum : Half
  src : IpAddr
  dst : IpAddr
  deriving DecidableEq, Repr

/-- The decoding of R106, from the first 20 bytes of a frame. -/
def parseHeader (f : List Byte) : InboundHeader where
  version := (byteAt f 0).extractLsb' 4 4
  ihl := (byteAt f 0).extractLsb' 0 4
  tos := byteAt f 1
  totalLength := be16 f 2
  ident := be16 f 4
  flagsFrag := be16 f 6
  ttl := byteAt f 8
  proto := byteAt f 9
  checksum := be16 f 10
  src := addrAt f 12
  dst := addrAt f 16

/-- `hl = ihl * 4`, the header length in bytes (R106, R176). -/
def InboundHeader.headerLen (h : InboundHeader) : Nat := h.ihl.toNat * 4

/-- `tl`, the declared datagram length in bytes (R14, R106). -/
def InboundHeader.datagramLen (h : InboundHeader) : Nat := h.totalLength.toNat

/-- The checks of step 2 (R174): the frame of `n` bytes is dropped when one of the four holds. -/
def InboundHeader.invalid (h : InboundHeader) (n : Nat) : Bool :=
  h.tos.getLsbD 0 || h.version != 4 || decide (n < h.datagramLen) || decide (h.headerLen < 20)

/-- FLAGS_FRAG of an outbound header: `(mf << 13) | off` (R104, R107, R210). -/
def flagsFragWord (mf : Bool) (off : BitVec 13) : Half :=
  ((BitVec.ofBool mf).setWidth 16 <<< 13) ||| off.setWidth 16

/-- BUILD_ARG as stored by a write: `wdata & 0x1FFFFFFF`, IDENT in [15:0], OFFSET in [28:16] (R47). -/
def BuildArg.ofWord (w : Word) : BuildArg where
  ident := w.extractLsb' 0 16
  offset := w.extractLsb' 16 13

/-- BUILD_ARG as read: [31:29] reads 0 (R47). -/
def BuildArg.toWord (a : BuildArg) : Word := (0 : BitVec 3) ++ a.offset ++ a.ident

end Sys2Proof.Machine
end

