-- ==== Sys2Proof/Machine/Ops.lean ====
section
/-! DEFINITION. The named operations over the buffers (R73, R76, R90, R263, R264) and over the registers and the trace: the
pseudocode primitives of R12, and the reset event of R330. IPV4CORE has no trap: its one way of taking a fault is
`raise Fault(K)` (R300, R306), after which there is nothing to return from (R307). -/

namespace Sys2Proof.Machine

/-- The byte at offset `a`, or none where nothing has written it since reset (R90). -/
def Memory.read : Memory → Nat → Option Byte
  | [], _ => none
  | (k, b) :: rest, a => if k = a then some b else Memory.read rest a

/-- The byte `v` stored at offset `a`, offsets kept rising. -/
def Memory.write : Memory → Nat → Byte → Memory
  | [], a, v => [(a, v)]
  | (k, b) :: rest, a, v =>
    if a < k then (a, v) :: (k, b) :: rest
    else if a = k then (a, v) :: rest
    else (k, b) :: Memory.write rest a v

/-- The canonical form of a buffer: offsets strictly rising, and each below 65,536 (R49, R50, R70). -/
abbrev Memory.wf (m : Memory) : Prop :=
  m.Pairwise (fun c d => c.1 < d.1) ∧ ∀ c ∈ m, c.1 < bufferBytes

/-- `MemRead(B, off, n)`: the bytes `B[off..off+n)`, or none where one of them is unwritten (R12, R76, R90). -/
def Memory.readRange (m : Memory) (off : Nat) : Nat → Option (List Byte)
  | 0 => some []
  | n + 1 =>
    match m.read off with
    | none => none
    | some b =>
      match Memory.readRange m (off + 1) n with
      | none => none
      | some bs => some (b :: bs)

/-- `word(B, o)`: the four bytes at `o` in lane order, or none where one of them is unwritten (R264). -/
def Memory.readWord (m : Memory) (o : Nat) : Option Word :=
  match m.read o, m.read (o + 1), m.read (o + 2), m.read (o + 3) with
  | some b0, some b1, some b2, some b3 => some (wordOfLanes b0 b1 b2 b3)
  | _, _, _, _ => none

/-- Lane `k` of `wdata` stored at `o + k` when `strb[k] = 1`; the buffer unchanged otherwise (R79, R263). -/
def Memory.writeLane (m : Memory) (o : Nat) (wdata : Word) (strb : BitVec 4) (k : Nat) : Memory :=
  if strb.getLsbD k then m.write (o + k) (lane wdata k) else m

/-- `write_bytes(B, o, wdata, strb)` (R263). -/
def Memory.writeStrobed (m : Memory) (o : Nat) (wdata : Word) (strb : BitVec 4) : Memory :=
  (((m.writeLane o wdata strb 0).writeLane o wdata strb 1).writeLane o wdata strb 2).writeLane o wdata strb 3

/-- Go on with the bytes `B[off..off+n)`; UNDEF_READ where one of them is unwritten (R90, R302). -/
def withBytes (m : Memory) (off n : Nat) (next : List Byte → Effect) : Effect :=
  match m.readRange off n with
  | none => .fault .undefRead
  | some b => next b

/-- `Emit(S, rec)`: the record appended to the trace (R12, R51, R84). -/
def State.emit (s : State) (r : Record) : State := { s with trace := s.trace ++ [r] }

/-- `finish(code, count)`: RESULT written, the command ends normally (R12, R40). -/
def State.finish (s : State) (code : ResultCode) (count : Half) : State :=
  { s with result := { code := code, count := count } }

/-- `raise Fault(K)`: the STATUS bit of K set, RESULT takes K's code with COUNT 0, nothing else changes (R12, R300). -/
def State.raiseFault (s : State) (k : HwFault) : State :=
  { s with status := s.status.setFault k, result := { code := k.code, count := 0 } }

/-- `reject()`: STATUS.CMD_ERR set, RESULT takes CMD_REJECTED with COUNT 0, nothing else changes (R12, R266). -/
def State.reject (s : State) : State :=
  { s with status := s.status.setCmdErr, result := { code := .cmdRejected, count := 0 } }

/-- `busErr()`: STATUS.BUS_ERR set, nothing else changes (R12, R262). -/
def State.busErr (s : State) : State := { s with status := s.status.setBusErr }

/-- The word a CFG_READ returns, handed to the host (R260; log 2). -/
def State.respond (s : State) (w : Word) : State := { s with responses := s.responses ++ [w] }

/-- The reset event (R330, R332): everything as right after reset. The host's remaining moves are the host's and stay (log 4). -/
def State.restart (s : State) : State := { State.reset with host := s.host }

end Sys2Proof.Machine
end

