-- ==== Sys2Proof/Machine/Checksum.lean ====
section
/-! DEFINITION. The Internet checksum unit (R150 to R158): an internal, stateless function that RX_FRAME and BUILD_FRAME use. -/

namespace Sys2Proof.Machine

/-- The plain sum of the big-endian 16-bit words of `b`, an odd final byte padded with a zero low byte (R150). -/
def wordSum : List Byte → Nat
  | [] => 0
  | [b] => b.toNat * 256
  | b0 :: b1 :: rest => (b0.toNat * 256 + b1.toNat) + wordSum rest

/-- The end-around-carry loop of R150: while `s > 0xFFFF`, add the part above 16 bits to the low 16 bits. `fuel` bounds the
rounds; each round makes `s` smaller, so `s` rounds are enough (log 13). -/
def endAroundCarry : Nat → Nat → Nat
  | 0, s => s
  | fuel + 1, s => if 0xFFFF < s then endAroundCarry fuel (s % 0x10000 + s / 0x10000) else s

/-- `CKSUM16(b)` (R150): the one's complement of the folded sum. -/
def cksum16 (b : List Byte) : Half :=
  ~~~ BitVec.ofNat 16 (endAroundCarry (wordSum b) (wordSum b))

/-- `HDR_CKSUM(b, span) = CKSUM16(b[0..10) ++ [0x00, 0x00] ++ b[12..span))` (R152). -/
def hdrCksum (b : List Byte) (span : Nat) : Half :=
  cksum16 (b.take 10 ++ [0x00, 0x00] ++ (b.take span).drop 12)

/-- A received header passes the checksum check exactly when `HDR_CKSUM(F, hl) = be16(F, 10)` (R153). -/
abbrev cksumPasses (f : List Byte) (hl : Nat) : Prop := hdrCksum f hl = be16 f 10

end Sys2Proof.Machine
end

