-- ==== Sys2Proof/Machine/Receive.lean ====
section
/-! DEFINITION. RX_FRAME (R170 to R192): the Frame Validator and dispatch. Each step of R170's pseudocode is one definition, in
the order of R305; a failed check ends the command. -/

namespace Sys2Proof.Machine

/-- A protocol number is supported when it is ICMP's or UDP's (R181). -/
def supportedProto (p : Params) (proto : Byte) : Bool := proto == p.protoIcmp || proto == p.protoUdp

/-- Step 6 (R182, R183): for an unsupported protocol one ICMP_OUT record, and processing goes on. -/
def rxNotify (p : Params) (h : InboundHeader) (datagram : List Byte) (s : State) : State :=
  if supportedProto p h.proto then s
  else s.emit (.icmp h.src p.icmpCodeProtoUnreach datagram)

/-- The code of a completed RX_FRAME (R186). -/
def rxDoneCode (p : Params) (h : InboundHeader) : ResultCode :=
  if supportedProto p h.proto then .rxDispatched else .rxUnreachDispatched

/-- Steps 5 to 7 (R180 to R186): the datagram is `F[0..tl)`; notify where the protocol is unsupported; fault where the header
runs past the datagram; otherwise strip `hl` bytes and dispatch. -/
def rxDeliver (p : Params) (h : InboundHeader) (s : State) : Effect :=
  withBytes s.rxbuf 0 h.datagramLen fun datagram =>
    if h.datagramLen < h.headerLen then .next ((rxNotify p h datagram s).raiseFault .stripUnderflow)
    else
      .next (((rxNotify p h datagram s).emit (.disp h.proto h.src (datagram.drop h.headerLen))).finish (rxDoneCode p h) 0)

/-- Step 4 (R179): the destination must be this host's address. -/
def rxDestination (p : Params) (h : InboundHeader) (s : State) : Effect :=
  if h.dst = ipBytes s.hostIp then rxDeliver p h s else .next (s.finish .rxDropDest 0)

/-- Step 3 (R178): the checksum over exactly `hl` bytes. -/
def rxChecksum (p : Params) (h : InboundHeader) (s : State) : Effect :=
  withBytes s.rxbuf 0 h.headerLen fun header =>
    if hdrCksum header h.headerLen = h.checksum then rxDestination p h s else .next (s.finish .rxDropChecksum 0)

/-- Step 2 (R173 to R177): parse, check, and fault where the header runs past the frame. -/
def rxHeader (p : Params) (n : Nat) (s : State) : Effect :=
  withBytes s.rxbuf 0 20 fun first =>
    if (parseHeader first).invalid n then .next (s.finish .rxDropHeader 0)
    else if n < (parseHeader first).headerLen then .next (s.raiseFault .hdrOverrun)
    else rxChecksum p (parseHeader first) s

/-- RX_FRAME(N) (R170): registration (R171), step 1 (R172), and the rest. -/
def rxFrame (p : Params) (n : Nat) (s : State) : Effect :=
  if s.ctrlReg then
    if n < 20 then .next (s.finish .rxDropShort 0) else rxHeader p n s
  else .next s.reject

/-- RX_FRAME: validate the frame `RXBUF[0..LEN)` and dispatch its payload (R170). -/
def execRxFrame (len : Half) (s : State) : Effect := rxFrame Config.ipv4core len.toNat s

end Sys2Proof.Machine
end

