-- ==== Sys2Proof/Machine/Transmit.lean ====
section
/-! DEFINITION. The outbound side: BUILD_FRAME and TX_BUILD (R210 to R217), TX_SEND, the Fragmenter and the identification
counter (R230 to R244). -/

namespace Sys2Proof.Machine

/-- The 20 header bytes of R107 and R210 with the checksum field `c`; `n` is the number of payload bytes. -/
def outHeader (p : Params) (src dst : IpAddr) (proto : Byte) (ident : Half) (mf : Bool) (off : BitVec 13) (n : Nat)
    (c : Half) : List Byte :=
  [0x45, 0x00] ++ toBe16 (BitVec.ofNat 16 (20 + n)) ++ toBe16 ident ++ toBe16 (flagsFragWord mf off)
    ++ [p.defaultTtl, proto] ++ toBe16 c ++ src.toList ++ dst.toList

/-- The finished header: the checksum is computed last, over the header with the field zero, and inserted (R154, R210, R211). -/
def builtHeader (p : Params) (src dst : IpAddr) (proto : Byte) (ident : Half) (mf : Bool) (off : BitVec 13) (n : Nat) :
    List Byte :=
  outHeader p src dst proto ident mf off n (cksum16 (outHeader p src dst proto ident mf off n 0))

/-- `BUILD_FRAME(P, dst, proto, ident, mf, off)` (R210): the TX_OUT record it emits; the source is HOST_IP. -/
def buildFrame (p : Params) (hostIp : Word) (payload : List Byte) (dst : IpAddr) (proto : Byte) (ident : Half) (mf : Bool)
    (off : BitVec 13) : Record :=
  .tx dst (builtHeader p (ipBytes hostIp) dst proto ident mf off payload.length ++ payload)

/-- TX_BUILD(LEN, PROTO, MF) (R212, R213): rejected when LEN is over MAXFRAG, else one frame from BUILD_ARG and TX_DST. -/
def txBuild (p : Params) (mf : Bool) (proto : Byte) (len : Nat) (s : State) : Effect :=
  if p.maxFrag < len then .next s.reject
  else
    withBytes s.txbuf 0 len fun payload =>
      .next ((s.emit (buildFrame p s.hostIp payload (ipBytes s.txDst) proto s.buildArg.ident mf s.buildArg.offset)).finish
        .txBuilt 1)

/-- TX_BUILD: build and emit one frame with host-supplied identification, offset and flag (R212). -/
def execTxBuild (mf : Bool) (proto : Byte) (len : Half) (s : State) : Effect :=
  txBuild Config.ipv4core mf proto len.toNat s

/-- One frame of TX_SEND (R230): destination TX_DST and identification ID_NEXT as they stand when the command starts. The
offset is below 8192 (R237), so its 13-bit field holds it whole (log 14). -/
def sendFrame (p : Params) (s : State) (proto : Byte) (payload : List Byte) (mf : Bool) (off : Nat) : Record :=
  buildFrame p s.hostIp payload (ipBytes s.txDst) proto s.idNext mf (BitVec.ofNat 13 off)

/-- The loop of R230 (R231 to R235): the frames for the payload bytes from `cur` on, the first of them at offset `off` in 8-byte
units, or none where one of those bytes is unwritten (R239). `fuel` bounds the rounds: each takes at least one byte, so the
payload length is enough (log 13). -/
def sendLoop (p : Params) (s : State) (proto : Byte) (len : Nat) : Nat → Nat → Nat → Option (List Record)
  | 0, _, _ => some []
  | fuel + 1, cur, off =>
    if len - cur = 0 then some []
    else
      match s.txbuf.readRange cur (min (len - cur) p.maxFrag) with
      | none => none
      | some payload =>
        match sendLoop p s proto len fuel (cur + min (len - cur) p.maxFrag) (off + min (len - cur) p.maxFrag / 8) with
        | none => none
        | some rest => some (sendFrame p s proto payload (decide (p.maxFrag < len - cur)) off :: rest)

/-- What a zero-length TX_SEND emits (R238), by P_ZERO_LEN_SEND. -/
def zeroLenFrames (p : Params) (s : State) (proto : Byte) : List Record :=
  match p.zeroLenSend with
  | .oneEmpty => [sendFrame p s proto [] false 0]
  | .noFrame => []

/-- The end of TX_SEND (R230, R236): the frames stand in the trace in order, ID_NEXT has been incremented once modulo 65536, and
RESULT says how many frames there were. -/
def State.completeSend (s : State) (frames : List Record) : State :=
  { s with trace := s.trace ++ frames, idNext := s.idNext + 1 }.finish .txSent (BitVec.ofNat 16 frames.length)

/-- TX_SEND(L, proto) (R230). -/
def txSend (p : Params) (proto : Byte) (len : Nat) (s : State) : Effect :=
  if len = 0 then .next (s.completeSend (zeroLenFrames p s proto))
  else
    match sendLoop p s proto len len 0 0 with
    | none => .fault .undefRead
    | some frames => .next (s.completeSend frames)

/-- TX_SEND: fragment one payload and emit every fragment (R230). -/
def execTxSend (proto : Byte) (len : Half) (s : State) : Effect := txSend Config.ipv4core proto len.toNat s

end Sys2Proof.Machine
end

