-- ==== Sys2Proof/Machine/HostAccess.lean ====
section
/-! DEFINITION. CFG_READ and CFG_WRITE (R260 to R265), the address map (R32, R81), and the decode of a CMD write into a command
(R266). -/

namespace Sys2Proof.Machine

/-- The registers of R32. -/
inductive Reg where
  | id
  | ctrl
  | status
  | result
  | hostIp
  | idNext
  | txDst
  | cmd
  | mtu
  | ttl
  | buildArg
  deriving DecidableEq, Repr

/-- The CFG address of a register (R32). -/
def regAddr : Reg → CfgAddr
  | .id => 0x00
  | .ctrl => 0x04
  | .status => 0x08
  | .result => 0x0C
  | .hostIp => 0x10
  | .idNext => 0x14
  | .txDst => 0x18
  | .cmd => 0x1C
  | .mtu => 0x20
  | .ttl => 0x24
  | .buildArg => 0x28

/-- The register at a CFG address, none where there is none (R32, R48). -/
def regAt (addr : CfgAddr) : Option Reg :=
  [Reg.id, .ctrl, .status, .result, .hostIp, .idNext, .txDst, .cmd, .mtu, .ttl, .buildArg].find? fun r => regAddr r == addr

/-- What a CFG address reaches (R78, R81). -/
inductive Target where
  /-- `addr[1:0]` is not 0. -/
  | misaligned
  /-- The RXBUF window, at this buffer offset. -/
  | rxWindow (off : Nat)
  /-- The TXBUF window, at this buffer offset. -/
  | txWindow (off : Nat)
  | register (r : Reg)
  | unmapped
  deriving DecidableEq, Repr

/-- The address decode of R260 and R261, by the map of R81. -/
def targetOf (addr : CfgAddr) : Target :=
  if addr.toNat % 4 ≠ 0 then .misaligned
  else if 0x10000 ≤ addr.toNat ∧ addr.toNat ≤ 0x1FFFC then .rxWindow (addr.toNat - 0x10000)
  else if 0x20000 ≤ addr.toNat ∧ addr.toNat ≤ 0x2FFFC then .txWindow (addr.toNat - 0x20000)
  else
    match regAt addr with
    | some r => .register r
    | none => .unmapped

/-- The word a read of a register returns (R33 to R47, R260): constants for ID, MTU and TTL, 0 for CMD. -/
def readReg (p : Params) (s : State) : Reg → Word
  | .id => 0x49503401
  | .ctrl => (BitVec.ofBool s.ctrlReg).setWidth 32
  | .status => s.status.toWord
  | .result => s.result.toWord
  | .hostIp => s.hostIp
  | .idNext => s.idNext.setWidth 32
  | .txDst => s.txDst
  | .cmd => 0
  | .mtu => BitVec.ofNat 32 p.mtu
  | .ttl => p.defaultTtl.setWidth 32
  | .buildArg => s.buildArg.toWord

/-- The read of a buffer word (R264): UNDEF_READ where one of its four bytes is unwritten. -/
def readBufferWord (m : Memory) (off : Nat) (s : State) : Effect :=
  match m.readWord off with
  | none => .fault .undefRead
  | some w => .next (s.respond w)

/-- CFG_READ(addr) (R260): an erroneous read sets BUS_ERR and returns 0 (R262). -/
def cfgRead (p : Params) (addr : CfgAddr) (s : State) : Effect :=
  match targetOf addr with
  | .misaligned => .next (s.busErr.respond 0)
  | .rxWindow off => readBufferWord s.rxbuf off s
  | .txWindow off => readBufferWord s.txbuf off s
  | .register r => .next (s.respond (readReg p s r))
  | .unmapped => .next (s.busErr.respond 0)

/-- CFG_READ: read one 32-bit word; STRB is ignored (R260). -/
def execCfgRead (_strb : BitVec 4) (addr : CfgAddr) (s : State) : Effect := cfgRead Config.ipv4core addr s

/-- `execute_command(w)` (R266): the decoded command runs, every other word is rejected. `decodeCommand` never answers a CFG
transaction. -/
def executeCommand (p : Params) (w : Word) (s : State) : Effect :=
  match decodeCommand w with
  | .ok (.rxFrame len) => rxFrame p len.toNat s
  | .ok (.txSend proto len) => txSend p proto len.toNat s
  | .ok (.txBuild mf proto len) => txBuild p mf proto len.toNat s
  | .ok (.cfgRead _ _) => .next s.reject
  | .ok (.cfgWrite _ _ _) => .next s.reject
  | .error _ => .next s.reject

/-- A full-word write of a register (R261): CTRL.REG is set-only (R35), read-only registers are left alone and set BUS_ERR
(R262), CMD runs a command (R266). -/
def writeReg (p : Params) (wdata : Word) (s : State) : Reg → Effect
  | .ctrl => .next { s with ctrlReg := s.ctrlReg || wdata.getLsbD 0 }
  | .hostIp => .next { s with hostIp := wdata }
  | .txDst => .next { s with txDst := wdata }
  | .buildArg => .next { s with buildArg := BuildArg.ofWord wdata }
  | .cmd => executeCommand p wdata s
  | .id => .next s.busErr
  | .status => .next s.busErr
  | .result => .next s.busErr
  | .idNext => .next s.busErr
  | .mtu => .next s.busErr
  | .ttl => .next s.busErr

/-- CFG_WRITE(addr, wdata, strb) (R261): the bus checks come first (R305), and a register write needs the full strobe (R265). -/
def cfgWrite (p : Params) (strb : BitVec 4) (addr : CfgAddr) (wdata : Word) (s : State) : Effect :=
  match targetOf addr with
  | .misaligned => .next s.busErr
  | .rxWindow off => .next { s with rxbuf := s.rxbuf.writeStrobed off wdata strb }
  | .txWindow off => .next { s with txbuf := s.txbuf.writeStrobed off wdata strb }
  | .register r => if strb = 0xF then writeReg p wdata s r else .next s.busErr
  | .unmapped => .next s.busErr

/-- CFG_WRITE: write one 32-bit word under a byte strobe (R261). -/
def execCfgWrite (strb : BitVec 4) (addr : CfgAddr) (wdata : Word) (s : State) : Effect :=
  cfgWrite Config.ipv4core strb addr wdata s

end Sys2Proof.Machine
end

