-- ==== Sys2Proof/Machine/Dispatch.lean ====
section
/-! DEFINITION. The dispatch of an instruction to its meaning: one arm per constructor of Instr. -/

namespace Sys2Proof.Machine

def exec (i : Instr) (s : State) : Host.Outcome State Fault Refusal :=
  match i with
  | .cfgRead strb addr => Sys2Proof.Machine.execCfgRead strb addr s
  | .cfgWrite strb addr wdata => Sys2Proof.Machine.execCfgWrite strb addr wdata s
  | .rxFrame len => Sys2Proof.Machine.execRxFrame len s
  | .txSend proto len => Sys2Proof.Machine.execTxSend proto len s
  | .txBuild mf proto len => Sys2Proof.Machine.execTxBuild mf proto len s

end Sys2Proof.Machine
end

