-- ==== Sys2Proof/Machine/Step.lean ====
section
/-! DEFINITION. One step of the machine: the host's next move (R345). A CFG transaction is decoded (R115, R116) and run to
completion, a command with it (R80); a reset pulse resets (R330); with no move left the block is idle (R315; log 3). -/

namespace Sys2Proof.Machine

/-- One move of the host (R80, R315, R330, R345). -/
def step (s : State) : Host.Outcome State Fault Refusal :=
  match s.host with
  | [] => .next s
  | .reset :: rest => .next (State.restart { s with host := rest })
  | .cfg request wdata :: rest => exec (decodeRequest request wdata) { s with host := rest }

/-- `s` with the instruction of a table word as the host's next move (logs 1 and 9). -/
def State.withFetchWord (s : State) (nbits w : Nat) : State :=
  { s with host := .cfg (tableTransaction nbits w).1 (tableTransaction nbits w).2 :: s.host }

end Sys2Proof.Machine
end

