-- ==== Sys2Proof/Machine/HostProgram.lean ====
section
/-! DEFINITION. The statements and pseudo-instructions of R130 and R131 as host moves, and the CFG sequence of each source call
(R267). They add no behaviour: each is a list of CFG transactions. -/

namespace Sys2Proof.Machine

/-- `WR addr, data, strb` (R130). -/
def asmWr (addr : CfgAddr) (data : Word) (strb : BitVec 4 := 0xF) : HostEvent :=
  .cfg (encodeRequest true strb addr) data

/-- `RD addr` (R130). -/
def asmRd (addr : CfgAddr) : HostEvent := .cfg (encodeRequest false 0 addr) 0

/-- `REGISTER` (R131). -/
def asmRegister : HostEvent := asmWr 0x04 1

/-- `SETIP a.b.c.d` (R131). -/
def asmSetIp (a b c d : Byte) : HostEvent := asmWr 0x10 (a ++ b ++ c ++ d)

/-- `SETDST a.b.c.d` (R131). -/
def asmSetDst (a b c d : Byte) : HostEvent := asmWr 0x18 (a ++ b ++ c ++ d)

/-- `SETBUILD ident, off` (R131). -/
def asmSetBuild (ident : Half) (off : BitVec 13) : HostEvent :=
  asmWr 0x28 (BuildArg.toWord { ident := ident, offset := off })

/-- The writes of LOADRX and LOADTX (R131): one word for each group of four bytes from the CFG address `base` on, with the
strobe of the bytes that exist. -/
def asmLoad (base : Nat) : List Byte → List HostEvent
  | [] => []
  | [b0] => [asmWr (BitVec.ofNat 20 base) (wordOfLanes b0 0 0 0) 0x1]
  | [b0, b1] => [asmWr (BitVec.ofNat 20 base) (wordOfLanes b0 b1 0 0) 0x3]
  | [b0, b1, b2] => [asmWr (BitVec.ofNat 20 base) (wordOfLanes b0 b1 b2 0) 0x7]
  | b0 :: b1 :: b2 :: b3 :: rest => asmWr (BitVec.ofNat 20 base) (wordOfLanes b0 b1 b2 b3) 0xF :: asmLoad (base + 4) rest

/-- `LOADRX off, b0 b1 ...` (R131): `off` is a multiple of 4. -/
def asmLoadRx (off : Nat) (bytes : List Byte) : List HostEvent := asmLoad (0x10000 + off) bytes

/-- `LOADTX off, b0 b1 ...` (R131): "the same with base 0x20000". -/
def asmLoadTx (off : Nat) (bytes : List Byte) : List HostEvent := asmLoad (0x20000 + off) bytes

/-- `RX len` (R131). -/
def asmRx (len : Half) : HostEvent := asmWr cmdAddr (rxFrameWord len)

/-- `SEND proto, len` (R131). -/
def asmSend (proto : Byte) (len : Half) : HostEvent := asmWr cmdAddr (txSendWord proto len)

/-- `BUILD proto, len, mf` (R131). -/
def asmBuild (proto : Byte) (len : Half) (mf : Bool) : HostEvent := asmWr cmdAddr (txBuildWord mf proto len)

/-- Inbound frame delivery, `ip_in(frame)` (R267): LOADRX, then `RX N`. -/
def callIpIn (frame : List Byte) : List HostEvent :=
  asmLoadRx 0 frame ++ [asmRx (BitVec.ofNat 16 frame.length)]

/-- Outbound send, `ip_out(payload, dst, proto)` (R267): LOADTX, SETDST, then `SEND proto, L`. -/
def callIpOut (payload : List Byte) (dst : IpAddr) (proto : Byte) : List HostEvent :=
  asmLoadTx 0 payload ++ [asmSetDst dst.b0 dst.b1 dst.b2 dst.b3, asmSend proto (BitVec.ofNat 16 payload.length)]

/-- The single-fragment builder (R267): LOADTX, SETDST, SETBUILD, then `BUILD proto, L, mf`. -/
def callBuild (payload : List Byte) (dst : IpAddr) (proto : Byte) (ident : Half) (off : BitVec 13) (mf : Bool) :
    List HostEvent :=
  asmLoadTx 0 payload
    ++ [asmSetDst dst.b0 dst.b1 dst.b2 dst.b3, asmSetBuild ident off, asmBuild proto (BitVec.ofNat 16 payload.length) mf]

end Sys2Proof.Machine
end

