-- ==== Sys2Proof/Safety.lean ====
section
/-! DEFINITION. The terms claims are stated in: what counts as a recorded fault (R303) and as a clean bus (D7), what host state
is (R60), the fields of a received frame as arithmetic on its bytes (R106), what a well-formed output record is (R120 to R122),
and the invariants of the machine. -/

namespace Sys2Proof.Machine

/-- "A model treats either STATUS bit being 1 as fault recorded" (R303). -/
abbrev State.faultRecorded (s : State) : Prop := s.status.hdrOverrun = true ∨ s.status.stripUnderflow = true

/-- No erroneous CFG transaction and no rejected command since reset (R36, 92_eei_decisions D7). -/
abbrev State.noErrors (s : State) : Prop := s.status.busErr = false ∧ s.status.cmdErr = false

/-- "Host state" (R60): CTRL, HOST_IP, ID_NEXT, TX_DST, BUILD_ARG, the buffers and the output trace are the same. -/
abbrev State.sameHostState (s t : State) : Prop :=
  t.ctrlReg = s.ctrlReg ∧ t.hostIp = s.hostIp ∧ t.idNext = s.idNext ∧ t.txDst = s.txDst ∧ t.buildArg = s.buildArg
    ∧ t.rxbuf = s.rxbuf ∧ t.txbuf = s.txbuf ∧ t.trace = s.trace

/-- RXBUF begins with the bytes `f`, all of them written. -/
abbrev State.rxHolds (s : State) (f : List Byte) : Prop := s.rxbuf.readRange 0 f.length = some f

/-- TXBUF begins with the bytes `f`, all of them written. -/
abbrev State.txHolds (s : State) (f : List Byte) : Prop := s.txbuf.readRange 0 f.length = some f

/-- `ver = F[0][7:4]` (R106) as a number. -/
def frameVersion (f : List Byte) : Nat := (byteAt f 0).toNat / 16

/-- `hl = F[0][3:0] * 4` (R106) as a number. -/
def frameHeaderLen (f : List Byte) : Nat := (byteAt f 0).toNat % 16 * 4

/-- `tl = be16(F, 2)` (R106) as a number. -/
def frameTotalLen (f : List Byte) : Nat := (byteAt f 2).toNat * 256 + (byteAt f 3).toNat

/-- The address at offset `i` as the register value that holds it: the first byte on the wire in bits [31:24] (R72). -/
def addrValue (f : List Byte) (i : Nat) : Nat :=
  (byteAt f i).toNat * 2 ^ 24 + (byteAt f (i + 1)).toNat * 2 ^ 16 + (byteAt f (i + 2)).toNat * 2 ^ 8
    + (byteAt f (i + 3)).toNat

/-- The plain sum `S` of the big-endian 16-bit words of `b`, the odd byte padded, before folding (R150, R151), as one sum. -/
def plainSum (b : List Byte) : Nat :=
  ∑ i ∈ Finset.range ((b.length + 1) / 2), ((byteAt b (2 * i)).toNat * 256 + (byteAt b (2 * i + 1)).toNat)

/-- `fold(S)` of R151. -/
def foldSum (s : Nat) : Nat := if s = 0 then 0 else (s - 1) % 65535 + 1

/-- The bytes of each 16-bit word exchanged (R155). -/
def swapPairs : List Byte → List Byte
  | [] => []
  | [b] => [b]
  | b0 :: b1 :: rest => b1 :: b0 :: swapPairs rest

/-- The frame of `n` bytes passes the four checks of step 2 (R174). -/
abbrev frameHeaderValid (f : List Byte) (n : Nat) : Prop :=
  (byteAt f 1).toNat % 2 = 0 ∧ frameVersion f = 4 ∧ frameTotalLen f ≤ n ∧ 20 ≤ frameHeaderLen f

/-- `frame` is the frame that R107 and R211 describe: a 20-byte header with these field values, then the payload. `src` and `dst`
are register values (R72), `off` is in 8-byte units. -/
def frameIs (p : Params) (frame : List Byte) (src dst : Word) (proto : Byte) (ident : Half) (mf : Bool) (off : Nat)
    (payload : List Byte) : Prop :=
  frame.length = 20 + payload.length ∧ frame.drop 20 = payload
    ∧ byteAt frame 0 = 0x45 ∧ byteAt frame 1 = 0x00 ∧ frameTotalLen frame = 20 + payload.length
    ∧ be16 frame 4 = ident ∧ off < 8192 ∧ (be16 frame 6).toNat = (if mf then 8192 else 0) + off
    ∧ byteAt frame 8 = p.defaultTtl ∧ byteAt frame 9 = proto ∧ hdrCksum frame 20 = be16 frame 10
    ∧ addrValue frame 12 = src.toNat ∧ addrValue frame 16 = dst.toNat

/-- The address bits reach nothing: misaligned, a reserved register offset, or outside the map (R48, R78, R81). -/
abbrev unreachable (addr : CfgAddr) : Prop :=
  addr.toNat % 4 ≠ 0 ∨ (0x2C ≤ addr.toNat ∧ addr.toNat < 0x10000) ∨ 0x30000 ≤ addr.toNat

/-- A well-formed record (R120 to R122). A TX frame: a 20-byte header without options before at most MAXFRAG payload bytes, its
total length its own length, reserved flag and DF clear, the checksum in place, the next hop its destination. A DISP payload
and an ICMP datagram lie inside a datagram; an ICMP datagram that holds its whole 20-byte header goes to that header's source,
with the protocol-unreachable code, for an unsupported protocol. -/
abbrev Record.wf (p : Params) : Record → Prop
  | .tx nextHop frame =>
    20 ≤ frame.length ∧ frame.length ≤ p.mtu ∧ frame.length = frameTotalLen frame ∧ byteAt frame 0 = 0x45
      ∧ byteAt frame 1 = 0 ∧ (be16 frame 6).toNat < 0x4000 ∧ byteAt frame 8 = p.defaultTtl
      ∧ cksumPasses frame 20 ∧ addrAt frame 16 = nextHop
  | .disp _ _ payload => payload.length ≤ 65515
  | .icmp notifyDst code datagram =>
    code = p.icmpCodeProtoUnreach ∧ datagram.length ≤ 65535
      ∧ (20 ≤ datagram.length → addrAt datagram 12 = notifyDst ∧ supportedProto p (byteAt datagram 9) = false)

/-- The record comes from RX_FRAME: a dispatch or a notification. -/
def Record.isInbound : Record → Bool
  | .tx _ _ => false
  | .disp _ _ _ => true
  | .icmp _ _ _ => true

/-- Both buffers are in canonical form. -/
abbrev State.buffersWf (s : State) : Prop := s.rxbuf.wf ∧ s.txbuf.wf

/-- Every record of the trace is well-formed (R120 to R122). -/
abbrev State.traceWf (s : State) : Prop := ∀ r ∈ s.trace, r.wf Config.ipv4core

/-- RESULT.COUNT is what R38 says for its code: at most 8192 frames for TX_SEND (R240), 1 for TX_BUILD, 0 otherwise. -/
abbrev Result.wf (r : Result) : Prop :=
  (r.code = .txSent → r.count.toNat ≤ 8192) ∧ (r.code = .txBuilt → r.count = 1)
    ∧ (r.code ≠ .txSent → r.code ≠ .txBuilt → r.count = 0)

/-- RESULT agrees with the sticky STATUS bits: the bit of a fault or a rejection that RESULT names is set (R37, R266, R300). -/
abbrev State.resultRecorded (s : State) : Prop :=
  (s.result.code = .faultHdrOverrun → s.status.hdrOverrun = true)
    ∧ (s.result.code = .faultStripUnderflow → s.status.stripUnderflow = true)
    ∧ (s.result.code = .cmdRejected → s.status.cmdErr = true)

/-- Nothing inbound has happened before registration (R35, R171): no DISP or ICMP record and no fault of RX_FRAME. -/
abbrev State.registeredFirst (s : State) : Prop :=
  s.ctrlReg = false → (∀ r ∈ s.trace, r.isInbound = false) ∧ ¬ s.faultRecorded

end Sys2Proof.Machine
end

