-- ==== Sys2Proof/Certificates/Slice0/Obligations.lean ====
section
/-! DEFINITION. The statements for the provers. Each docstring names the rule of spec/ it formalises. Statements about CFG_READ
show the returned word in the model's own field `responses` (log 2); statements about `step` show the host's moves in the
model's own field `host` (log 1). -/

open Sys2Proof Sys2Proof.Machine

/-! Encoding -/

/-- R115, R116: decoding the transaction of a well-formed instruction gives the instruction back, every operand at every value. -/
def Obligations.DecodeEncodeRoundTrip : Prop :=
  ∀ i : Instr, i.wellFormed = true → decodeRequest (encode i).1 (encode i).2 = i

/-- R115, R116: every transaction decodes to a well-formed instruction, whose transaction it is. -/
def Obligations.EncodeDecodeRoundTrip : Prop :=
  ∀ (request : BitVec 25) (wdata : Word), (decodeRequest request wdata).wellFormed = true
    ∧ (encode (decodeRequest request wdata)).1 = request
    ∧ (requestWe request = true → (encode (decodeRequest request wdata)).2 = wdata)

/-- Words written out from the encodings of R111, R112, R113 and R115 decode to their instructions. How a table word is numbered and
told apart (below 2^25 a request, its data word 0; otherwise a command word, none where it is illegal) is the model's choice:
log 9. -/
def Obligations.TableWordsDecode : Prop :=
  decodeTableWord 32 0x0000000C = some (.cfgRead 0x0 0x0000C) ∧ decodeTableWord 32 0x01310000 = some (.cfgWrite 0x3 0x10000 0)
    ∧ decodeTableWord 32 0x10000020 = some (.rxFrame 32) ∧ decodeTableWord 32 0x20110BB8 = some (.txSend 17 3000)
    ∧ decodeTableWord 32 0x31110008 = some (.txBuild true 17 8) ∧ decodeTableWord 32 0x40000000 = none

/-- R114, R266: `execute_command`. A full-word write of a legal command word runs exactly that command; every other word, RX_FRAME
before registration and TX_BUILD over MAXFRAG are rejected: CMD_ERR set, RESULT {CMD_REJECTED, 0}, nothing else. -/
def Obligations.CommandWriteRunsCommand : Prop :=
  ∀ (w : Word) (s : State),
    (w.toNat / 2 ^ 28 = 1 → w.toNat / 2 ^ 16 % 2 ^ 12 = 0 →
      exec (.cfgWrite 0xF 0x1C w) s = exec (.rxFrame (BitVec.ofNat 16 w.toNat)) s)
    ∧ (w.toNat / 2 ^ 28 = 2 → w.toNat / 2 ^ 24 % 2 ^ 4 = 0 →
      exec (.cfgWrite 0xF 0x1C w) s = exec (.txSend (BitVec.ofNat 8 (w.toNat / 2 ^ 16)) (BitVec.ofNat 16 w.toNat)) s)
    ∧ (w.toNat / 2 ^ 28 = 3 → w.toNat / 2 ^ 25 % 2 ^ 3 = 0 →
      exec (.cfgWrite 0xF 0x1C w) s
        = exec (.txBuild (decide (w.toNat / 2 ^ 24 % 2 = 1)) (BitVec.ofNat 8 (w.toNat / 2 ^ 16)) (BitVec.ofNat 16 w.toNat)) s)
    ∧ (¬ (w.toNat / 2 ^ 28 = 1 ∧ w.toNat / 2 ^ 16 % 2 ^ 12 = 0) → ¬ (w.toNat / 2 ^ 28 = 2 ∧ w.toNat / 2 ^ 24 % 2 ^ 4 = 0) →
      ¬ (w.toNat / 2 ^ 28 = 3 ∧ w.toNat / 2 ^ 25 % 2 ^ 3 = 0) →
      exec (.cfgWrite 0xF 0x1C w) s
        = .next { s with status := { s.status with cmdErr := true }, result := { code := .cmdRejected, count := 0 } })
    ∧ (∀ len : Half, s.ctrlReg = false → exec (.rxFrame len) s
        = .next { s with status := { s.status with cmdErr := true }, result := { code := .cmdRejected, count := 0 } })
    ∧ (∀ (mf : Bool) (proto : Byte) (len : Half), 1480 < len.toNat → exec (.txBuild mf proto len) s
        = .next { s with status := { s.status with cmdErr := true }, result := { code := .cmdRejected, count := 0 } })

/-! CFG_READ and CFG_WRITE -/

/-- R32 to R47, R260: a read of each register hands over its word and changes nothing else. Rests on log 2. -/
def Obligations.ReadReturnsRegister : Prop :=
  ∀ (strb : BitVec 4) (s : State),
    exec (.cfgRead strb 0x00) s = .next { s with responses := s.responses ++ [0x49503401] }
    ∧ exec (.cfgRead strb 0x04) s = .next { s with responses := s.responses ++ [BitVec.ofNat 32 s.ctrlReg.toNat] }
    ∧ exec (.cfgRead strb 0x08) s = .next { s with responses := s.responses ++ [BitVec.ofNat 32 (s.status.hdrOverrun.toNat
        + 2 * s.status.stripUnderflow.toNat + 4 * s.status.cmdErr.toNat + 8 * s.status.busErr.toNat)] }
    ∧ exec (.cfgRead strb 0x0C) s = .next { s with responses := s.responses ++
        [BitVec.ofNat 32 (s.result.count.toNat * 2 ^ 16 + s.result.code.toByte.toNat)] }
    ∧ exec (.cfgRead strb 0x10) s = .next { s with responses := s.responses ++ [s.hostIp] }
    ∧ exec (.cfgRead strb 0x14) s = .next { s with responses := s.responses ++ [BitVec.ofNat 32 s.idNext.toNat] }
    ∧ exec (.cfgRead strb 0x18) s = .next { s with responses := s.responses ++ [s.txDst] }
    ∧ exec (.cfgRead strb 0x1C) s = .next { s with responses := s.responses ++ [0] }
    ∧ exec (.cfgRead strb 0x20) s = .next { s with responses := s.responses ++ [1500] }
    ∧ exec (.cfgRead strb 0x24) s = .next { s with responses := s.responses ++ [64] }
    ∧ exec (.cfgRead strb 0x28) s = .next { s with responses := s.responses ++
        [BitVec.ofNat 32 (s.buildArg.offset.toNat * 2 ^ 16 + s.buildArg.ident.toNat)] }

/-- R73, R260, R264: an aligned read in a window hands over the four bytes in lane order; where one is unwritten it is UNDEF_READ.
Rests on log 2. -/
def Obligations.ReadReturnsBufferWord : Prop :=
  ∀ (strb : BitVec 4) (addr : CfgAddr) (s : State), addr.toNat % 4 = 0 →
    (0x10000 ≤ addr.toNat → addr.toNat ≤ 0x1FFFF →
      (∀ b0 b1 b2 b3 : Byte, s.rxbuf.readRange (addr.toNat - 0x10000) 4 = some [b0, b1, b2, b3] →
        exec (.cfgRead strb addr) s = .next { s with responses := s.responses ++
          [BitVec.ofNat 32 (b0.toNat + b1.toNat * 2 ^ 8 + b2.toNat * 2 ^ 16 + b3.toNat * 2 ^ 24)] })
      ∧ (∀ k < 4, s.rxbuf.read (addr.toNat - 0x10000 + k) = none → exec (.cfgRead strb addr) s = .fault .undefRead))
    ∧ (0x20000 ≤ addr.toNat → addr.toNat ≤ 0x2FFFF →
      (∀ b0 b1 b2 b3 : Byte, s.txbuf.readRange (addr.toNat - 0x20000) 4 = some [b0, b1, b2, b3] →
        exec (.cfgRead strb addr) s = .next { s with responses := s.responses ++
          [BitVec.ofNat 32 (b0.toNat + b1.toNat * 2 ^ 8 + b2.toNat * 2 ^ 16 + b3.toNat * 2 ^ 24)] })
      ∧ (∀ k < 4, s.txbuf.read (addr.toNat - 0x20000 + k) = none → exec (.cfgRead strb addr) s = .fault .undefRead))

/-- R48, R78, R81, R262: a misaligned or unmapped transaction, and a write of a read-only register, sets BUS_ERR and nothing else;
an erroneous read returns 0. Rests on log 2. -/
def Obligations.ErroneousTransactionOnlySetsBusErr : Prop :=
  ∀ (strb : BitVec 4) (addr : CfgAddr) (wdata : Word) (s : State),
    (unreachable addr →
      exec (.cfgRead strb addr) s
        = .next { s with status := { s.status with busErr := true }, responses := s.responses ++ [0] }
      ∧ exec (.cfgWrite strb addr wdata) s = .next { s with status := { s.status with busErr := true } })
    ∧ (addr ∈ [0x00, 0x08, 0x0C, 0x14, 0x20, 0x24] →
      exec (.cfgWrite strb addr wdata) s = .next { s with status := { s.status with busErr := true } })

/-- R265: a register write with a partial strobe is ignored and sets BUS_ERR; on CMD it runs no command and leaves RESULT. -/
def Obligations.PartialStrobeRegisterWriteIgnored : Prop :=
  ∀ (strb : BitVec 4) (addr : CfgAddr) (wdata : Word) (s : State), addr.toNat % 4 = 0 → addr.toNat ≤ 0x28 → strb ≠ 0xF →
    exec (.cfgWrite strb addr wdata) s = .next { s with status := { s.status with busErr := true } }

/-- R35, R41, R43, R47, R261: a full-word write of CTRL, HOST_IP, TX_DST or BUILD_ARG stores the writable bits and nothing else. -/
def Obligations.RegisterWriteStores : Prop :=
  ∀ (wdata : Word) (s : State),
    exec (.cfgWrite 0xF 0x04 wdata) s = .next { s with ctrlReg := s.ctrlReg || decide (wdata.toNat % 2 = 1) }
    ∧ exec (.cfgWrite 0xF 0x10 wdata) s = .next { s with hostIp := wdata }
    ∧ exec (.cfgWrite 0xF 0x18 wdata) s = .next { s with txDst := wdata }
    ∧ exec (.cfgWrite 0xF 0x28 wdata) s = .next { s with buildArg :=
        { ident := BitVec.ofNat 16 wdata.toNat, offset := BitVec.ofNat 13 (wdata.toNat / 2 ^ 16) } }

/-- R47: BUILD_ARG holds IDENT in [15:0] and OFFSET in [28:16]; [31:29] reads 0; a write stores `wdata & 0x1FFFFFFF`; reset 0. -/
def Obligations.BuildArgStoresMaskedWord : Prop :=
  (∀ (p : Params) (wdata : Word) (s : State), ∃ t, exec (.cfgWrite 0xF 0x28 wdata) s = .next t
    ∧ readReg p t .buildArg = wdata &&& 0x1FFFFFFF)
  ∧ (∀ (p : Params) (s : State), (readReg p s .buildArg).toNat % 2 ^ 16 = s.buildArg.ident.toNat
    ∧ (readReg p s .buildArg).toNat / 2 ^ 16 % 2 ^ 13 = s.buildArg.offset.toNat
    ∧ (readReg p s .buildArg).toNat / 2 ^ 29 = 0)
  ∧ State.reset.buildArg = { ident := 0, offset := 0 }

/-- R35, R171: writing 1 sets REG, a second write of 1 changes nothing, no transaction or command clears it, reset does; while it is 0
RX_FRAME is rejected, whatever RXBUF holds; TX_SEND and TX_BUILD do not depend on it. -/
def Obligations.RegistrationIsSetOnly : Prop :=
  (∀ (wdata : Word) (s : State), wdata.toNat % 2 = 1 → exec (.cfgWrite 0xF 0x04 wdata) s = .next { s with ctrlReg := true })
  ∧ (∀ (i : Instr) (s t : State), exec i s = .next t → s.ctrlReg = true → t.ctrlReg = true)
  ∧ State.reset.ctrlReg = false
  ∧ (∀ (len : Half) (s : State), s.ctrlReg = false → exec (.rxFrame len) s
      = .next { s with status := { s.status with cmdErr := true }, result := { code := .cmdRejected, count := 0 } })
  ∧ (∀ (mf b : Bool) (proto : Byte) (len : Half) (s t : State),
      (exec (.txSend proto len) s = .next t →
        exec (.txSend proto len) { s with ctrlReg := b } = .next { t with ctrlReg := b })
      ∧ (exec (.txBuild mf proto len) s = .next t →
        exec (.txBuild mf proto len) { s with ctrlReg := b } = .next { t with ctrlReg := b }))

/-- R77, R79, R263: an aligned write in a window stores exactly the bytes whose strobe bit is 1; every other byte of the buffer keeps
its value, written or unwritten, and nothing else changes. -/
def Obligations.BufferWriteStoresStrobedBytes : Prop :=
  ∀ (strb : BitVec 4) (addr : CfgAddr) (wdata : Word) (s : State), addr.toNat % 4 = 0 →
    (0x10000 ≤ addr.toNat → addr.toNat ≤ 0x1FFFF → ∃ m, exec (.cfgWrite strb addr wdata) s = .next { s with rxbuf := m }
      ∧ (∀ k < 4, strb.getLsbD k = true →
        m.read (addr.toNat - 0x10000 + k) = some (BitVec.ofNat 8 (wdata.toNat / 2 ^ (8 * k))))
      ∧ (∀ a, (∀ k < 4, strb.getLsbD k = true → a ≠ addr.toNat - 0x10000 + k) → m.read a = s.rxbuf.read a))
    ∧ (0x20000 ≤ addr.toNat → addr.toNat ≤ 0x2FFFF → ∃ m, exec (.cfgWrite strb addr wdata) s = .next { s with txbuf := m }
      ∧ (∀ k < 4, strb.getLsbD k = true →
        m.read (addr.toNat - 0x20000 + k) = some (BitVec.ofNat 8 (wdata.toNat / 2 ^ (8 * k))))
      ∧ (∀ a, (∀ k < 4, strb.getLsbD k = true → a ≠ addr.toNat - 0x20000 + k) → m.read a = s.txbuf.read a))

/-- R79, R260: the frame of CFG_READ. A read changes nothing but BUS_ERR, which it can only set, and hands over one word; the same
read again hands over the same word. Rests on log 2. -/
def Obligations.ReadHasNoSideEffects : Prop :=
  ∀ (strb strb' : BitVec 4) (addr : CfgAddr) (s t : State), exec (.cfgRead strb addr) s = .next t →
    ∃ w, t = { s with status := { s.status with busErr := t.status.busErr }, responses := s.responses ++ [w] }
      ∧ (s.status.busErr = true → t.status.busErr = true)
      ∧ (∀ a, t.rxbuf.read a = s.rxbuf.read a ∧ t.txbuf.read a = s.txbuf.read a)
      ∧ exec (.cfgRead strb' addr) t = .next { t with responses := t.responses ++ [w] }

/-- R40, R261: the frame of a CFG_WRITE that is not a full-word write of CMD. Each register changes only by a write of its own address,
BUS_ERR can only be set, RESULT, the other STATUS bits, ID_NEXT and the trace stay, and a buffer byte outside the addressed
word stays. -/
def Obligations.WriteChangesOnlyItsTarget : Prop :=
  ∀ (strb : BitVec 4) (addr : CfgAddr) (wdata : Word) (s t : State), exec (.cfgWrite strb addr wdata) s = .next t →
    ¬ (strb = 0xF ∧ addr = 0x1C) →
    t.result = s.result ∧ t.idNext = s.idNext ∧ t.trace = s.trace ∧ t.responses = s.responses ∧ t.host = s.host
      ∧ t.status = { s.status with busErr := t.status.busErr } ∧ (s.status.busErr = true → t.status.busErr = true)
      ∧ (addr ≠ 0x04 → t.ctrlReg = s.ctrlReg) ∧ (addr ≠ 0x10 → t.hostIp = s.hostIp)
      ∧ (addr ≠ 0x18 → t.txDst = s.txDst) ∧ (addr ≠ 0x28 → t.buildArg = s.buildArg)
      ∧ (∀ a, ¬ (addr.toNat ≤ 0x10000 + a ∧ 0x10000 + a ≤ addr.toNat + 3 ∧ addr.toNat ≤ 0x1FFFF) →
        t.rxbuf.read a = s.rxbuf.read a)
      ∧ (∀ a, ¬ (addr.toNat ≤ 0x20000 + a ∧ 0x20000 + a ≤ addr.toNat + 3 ∧ addr.toNat ≤ 0x2FFFF) →
        t.txbuf.read a = s.txbuf.read a)

/-! The checksum unit -/

/-- R151: the closed form of CKSUM16, for a byte sequence of any length, and when it is 0x0000 or 0xFFFF (as R150 makes it: log 10). -/
def Obligations.ChecksumClosedForm : Prop :=
  ∀ b : List Byte, (cksum16 b).toNat = 0xFFFF - foldSum (plainSum b)
    ∧ (cksum16 b = 0x0000 ↔ 0 < plainSum b ∧ plainSum b % 65535 = 0)
    ∧ (cksum16 b = 0xFFFF ↔ plainSum b = 0)

/-- R152: HDR_CKSUM treats the checksum field as zero: it does not depend on bytes 10 and 11. -/
def Obligations.HeaderChecksumMasksField : Prop :=
  ∀ (b : List Byte) (span : Nat) (x y : Byte), 12 ≤ span → span ≤ b.length →
    hdrCksum ((b.set 10 x).set 11 y) span = hdrCksum b span
      ∧ hdrCksum b span = cksum16 (((b.set 10 0).set 11 0).take span)

/-- R157: a header that passes verification fails it after any one bit outside the IHL nibble is flipped. -/
def Obligations.SingleBitFlipFailsVerification : Prop :=
  ∀ (f : List Byte) (hl i k : Nat), 20 ≤ hl → hl ≤ f.length → cksumPasses f hl → i < hl → k < 8 → ¬ (i = 0 ∧ k < 4) →
    ¬ cksumPasses (f.set i (byteAt f i ^^^ BitVec.ofNat 8 (2 ^ k))) hl

/-- R154: the header BUILD_FRAME builds has the checksum of the header with the field zero in bytes 10 and 11, high byte first, and
passes verification over its 20 bytes. -/
def Obligations.BuiltHeaderPassesVerification : Prop :=
  ∀ (p : Params) (src dst : IpAddr) (proto : Byte) (ident : Half) (mf : Bool) (off : BitVec 13) (n : Nat),
    cksumPasses (builtHeader p src dst proto ident mf off n) 20
      ∧ builtHeader p src dst proto ident mf off n
        = outHeader p src dst proto ident mf off n (hdrCksum (outHeader p src dst proto ident mf off n 0) 20)

/-- R156: a header whose words, with the field zero, sum to a positive multiple of 65535 has HDR_CKSUM 0x0000: it is accepted with
the field 0x0000 and with no other, 0xFFFF included; the rule's example header is one. -/
def Obligations.TwoZerosOfTheChecksum : Prop :=
  (∀ (f : List Byte) (hl : Nat), 20 ≤ hl → hl ≤ f.length →
    0 < plainSum (((f.set 10 0).set 11 0).take hl) → plainSum (((f.set 10 0).set 11 0).take hl) % 65535 = 0 →
    hdrCksum f hl = 0x0000 ∧ (cksumPasses f hl ↔ be16 f 10 = 0x0000))
  ∧ cksumPasses [0x45, 0x00, 0x00, 0x14, 0xF9, 0x85, 0x00, 0x00, 0x40, 0x11, 0x00, 0x00, 0xC0, 0xA8, 0x00, 0x01, 0xC0, 0xA8,
      0x00, 0x02] 20
  ∧ ¬ cksumPasses [0x45, 0x00, 0x00, 0x14, 0xF9, 0x85, 0x00, 0x00, 0x40, 0x11, 0xFF, 0xFF, 0xC0, 0xA8, 0x00, 0x01, 0xC0, 0xA8,
      0x00, 0x02] 20

/-- R155: summing the words with their bytes exchanged gives the checksum with its bytes exchanged, so the wire bytes are the same. -/
def Obligations.ChecksumIsByteOrderIndependent : Prop :=
  ∀ b : List Byte, b.length % 2 = 0 →
    (cksum16 (swapPairs b)).toNat = (cksum16 b).toNat % 256 * 256 + (cksum16 b).toNat / 256

/-! RX_FRAME -/

/-- R106: the fields of a received header, as numbers. -/
def Obligations.ReceivedHeaderFields : Prop :=
  ∀ f : List Byte, (parseHeader f).version.toNat = (byteAt f 0).toNat / 16 ∧ (parseHeader f).ihl.toNat = (byteAt f 0).toNat % 16
    ∧ (parseHeader f).headerLen = (byteAt f 0).toNat % 16 * 4 ∧ (parseHeader f).tos = byteAt f 1
    ∧ (parseHeader f).totalLength.toNat = (byteAt f 2).toNat * 256 + (byteAt f 3).toNat
    ∧ (parseHeader f).ident.toNat = (byteAt f 4).toNat * 256 + (byteAt f 5).toNat
    ∧ (parseHeader f).flagsFrag.toNat = (byteAt f 6).toNat * 256 + (byteAt f 7).toNat
    ∧ (parseHeader f).ttl = byteAt f 8 ∧ (parseHeader f).proto = byteAt f 9
    ∧ (parseHeader f).checksum.toNat = (byteAt f 10).toNat * 256 + (byteAt f 11).toNat
    ∧ (parseHeader f).src.toList = [byteAt f 12, byteAt f 13, byteAt f 14, byteAt f 15]
    ∧ (parseHeader f).dst.toList = [byteAt f 16, byteAt f 17, byteAt f 18, byteAt f 19]

/-- R172: step 1. A frame of fewer than 20 bytes is dropped; no byte of RXBUF is read. -/
def Obligations.ShortFrameDropped : Prop :=
  ∀ (len : Half) (s : State), s.ctrlReg = true → len.toNat < 20 →
    exec (.rxFrame len) s = .next { s with result := { code := .rxDropShort, count := 0 } }

/-- R174: step 2. The frame is dropped if the reserved TOS bit is set, the version is not 4, the total length exceeds N, or the
header length is below 20. -/
def Obligations.InvalidHeaderDropped : Prop :=
  ∀ (len : Half) (s : State) (f : List Byte), s.ctrlReg = true → 20 ≤ len.toNat → s.rxHolds f → 20 ≤ f.length →
    (byteAt f 1).toNat % 2 = 1 ∨ frameVersion f ≠ 4 ∨ len.toNat < frameTotalLen f ∨ frameHeaderLen f < 20 →
    exec (.rxFrame len) s = .next { s with result := { code := .rxDropHeader, count := 0 } }

/-- R177: a valid header whose length exceeds N raises HDR_OVERRUN; nothing is emitted and no byte at offset N or above is read. -/
def Obligations.HeaderOverrunFaults : Prop :=
  ∀ (len : Half) (s : State) (f : List Byte), s.ctrlReg = true → 20 ≤ len.toNat → s.rxHolds f → 20 ≤ f.length →
    f.length ≤ len.toNat → frameHeaderValid f len.toNat → len.toNat < frameHeaderLen f →
    exec (.rxFrame len) s = .next { s with
      status := { s.status with hdrOverrun := true },
      result := { code := .faultHdrOverrun, count := 0 } }

/-- R178: step 3. A frame whose checksum over exactly `hl` bytes differs from its field is dropped; no path of RX_FRAME writes a
byte of RXBUF; every emitted datagram is `RXBUF[0..tl)` and every dispatched payload `RXBUF[hl..tl)` as they stand, the original
checksum field among them. -/
def Obligations.ChecksumMismatchDropped : Prop :=
  (∀ (len : Half) (s : State) (f : List Byte), s.ctrlReg = true → 20 ≤ len.toNat → s.rxHolds f →
    frameHeaderValid f len.toNat → frameHeaderLen f ≤ len.toNat → frameHeaderLen f ≤ f.length →
    hdrCksum f (frameHeaderLen f) ≠ be16 f 10 →
    exec (.rxFrame len) s = .next { s with result := { code := .rxDropChecksum, count := 0 } })
  ∧ (∀ (len : Half) (s t : State), exec (.rxFrame len) s = .next t → t.rxbuf = s.rxbuf
    ∧ ∀ records, t.trace = s.trace ++ records →
      (∀ dst code datagram, .icmp dst code datagram ∈ records → ∃ f, s.rxbuf.readRange 0 20 = some f
        ∧ datagram.length = frameTotalLen f ∧ s.rxbuf.readRange 0 (frameTotalLen f) = some datagram)
      ∧ (∀ proto src payload, .disp proto src payload ∈ records → ∃ f, s.rxbuf.readRange 0 20 = some f
        ∧ frameHeaderLen f + payload.length = frameTotalLen f
        ∧ s.rxbuf.readRange (frameHeaderLen f) (frameTotalLen f - frameHeaderLen f) = some payload))

/-- R179: step 4. A frame that passes steps 1 to 3 and whose four destination bytes are not HOST_IP's is dropped. -/
def Obligations.ForeignDestinationDropped : Prop :=
  ∀ (len : Half) (s : State) (f : List Byte), s.ctrlReg = true → 20 ≤ len.toNat → s.rxHolds f →
    frameHeaderValid f len.toNat → frameHeaderLen f ≤ len.toNat → frameHeaderLen f ≤ f.length →
    hdrCksum f (frameHeaderLen f) = be16 f 10 → addrValue f 16 ≠ s.hostIp.toNat →
    exec (.rxFrame len) s = .next { s with result := { code := .rxDropDest, count := 0 } }

/-- R180, R182, R183, R185, R186: steps 5 to 7. An accepted frame is trimmed to its total length; for a protocol other than 1 and 17
one ICMP_OUT record comes first; then the payload after `hl` bytes is dispatched with its protocol and source. -/
def Obligations.AcceptedFrameDispatched : Prop :=
  ∀ (len : Half) (s : State) (f : List Byte), s.ctrlReg = true → 20 ≤ len.toNat → s.rxHolds f →
    frameHeaderValid f len.toNat → frameHeaderLen f ≤ frameTotalLen f → frameTotalLen f ≤ f.length →
    hdrCksum f (frameHeaderLen f) = be16 f 10 → addrValue f 16 = s.hostIp.toNat →
    (byteAt f 9 = 1 ∨ byteAt f 9 = 17 → exec (.rxFrame len) s = .next { s with
      trace := s.trace ++ [.disp (byteAt f 9) (addrAt f 12) ((f.take (frameTotalLen f)).drop (frameHeaderLen f))],
      result := { code := .rxDispatched, count := 0 } })
    ∧ (byteAt f 9 ≠ 1 → byteAt f 9 ≠ 17 → exec (.rxFrame len) s = .next { s with
      trace := s.trace ++ [.icmp (addrAt f 12) 2 (f.take (frameTotalLen f)),
        .disp (byteAt f 9) (addrAt f 12) ((f.take (frameTotalLen f)).drop (frameHeaderLen f))],
      result := { code := .rxUnreachDispatched, count := 0 } })

/-- R184: an accepted frame whose header is longer than its datagram raises STRIP_UNDERFLOW at step 7; no DISP_OUT record is emitted,
and an ICMP_OUT record of step 6 stays. -/
def Obligations.StripUnderflowFaults : Prop :=
  ∀ (len : Half) (s : State) (f : List Byte), s.ctrlReg = true → 20 ≤ len.toNat → s.rxHolds f →
    frameHeaderValid f len.toNat → frameHeaderLen f ≤ len.toNat → frameTotalLen f < frameHeaderLen f →
    frameHeaderLen f ≤ f.length → hdrCksum f (frameHeaderLen f) = be16 f 10 → addrValue f 16 = s.hostIp.toNat →
    (byteAt f 9 = 1 ∨ byteAt f 9 = 17 → exec (.rxFrame len) s = .next { s with
      status := { s.status with stripUnderflow := true }, result := { code := .faultStripUnderflow, count := 0 } })
    ∧ (byteAt f 9 ≠ 1 → byteAt f 9 ≠ 17 → exec (.rxFrame len) s = .next { s with
      trace := s.trace ++ [.icmp (addrAt f 12) 2 (f.take (frameTotalLen f))],
      status := { s.status with stripUnderflow := true }, result := { code := .faultStripUnderflow, count := 0 } })

/-- R187: a drop at steps 1 to 4 emits no record and changes nothing but RESULT. -/
def Obligations.DropsAreSilent : Prop :=
  ∀ (len : Half) (s t : State), exec (.rxFrame len) s = .next t →
    t.result.code ∈ [.rxDropShort, .rxDropHeader, .rxDropChecksum, .rxDropDest] →
    t = { s with result := t.result } ∧ s.sameHostState t ∧ t.status = s.status

/-- R180, R188, R191: which bytes RX_FRAME reads. Its outcome depends on no byte but the first 20, the header where it lies inside the
frame, and the declared datagram where it does, written or unwritten: padding is never read. -/
def Obligations.ReceiveReadsOnlyDeclaredBytes : Prop :=
  ∀ (len : Half) (s : State) (m : Memory), (∀ a < 20, m.read a = s.rxbuf.read a) →
    (∀ f, s.rxbuf.readRange 0 20 = some f → ∀ a,
      (frameHeaderLen f ≤ len.toNat ∧ a < frameHeaderLen f) ∨ (frameTotalLen f ≤ len.toNat ∧ a < frameTotalLen f) →
      m.read a = s.rxbuf.read a) →
    (∀ t, exec (.rxFrame len) s = .next t → exec (.rxFrame len) { s with rxbuf := m } = .next { t with rxbuf := m })
    ∧ (∀ e, exec (.rxFrame len) s = .fault e → exec (.rxFrame len) { s with rxbuf := m } = .fault e)

/-- R90, R191, R302: a registered RX_FRAME of at least 20 bytes is UNDEF_READ where a byte it reads is unwritten: one of the first 20; one
of the header once step 2 has passed and the header lies inside the frame; one of the declared datagram once steps 3 and 4 have
passed too. It is UNDEF_READ in no other case: step 1 reads nothing, and padding is never read. -/
def Obligations.ReceiveFaultsOnUnwrittenByte : Prop :=
  ∀ (len : Half) (s : State),
    (s.ctrlReg = true → 20 ≤ len.toNat → ∀ a < 20, s.rxbuf.read a = none → exec (.rxFrame len) s = .fault .undefRead)
    ∧ (∀ f, s.ctrlReg = true → 20 ≤ len.toNat → s.rxHolds f → 20 ≤ f.length → frameHeaderValid f len.toNat →
      frameHeaderLen f ≤ len.toNat → ∀ a < frameHeaderLen f, s.rxbuf.read a = none → exec (.rxFrame len) s = .fault .undefRead)
    ∧ (∀ f, s.ctrlReg = true → 20 ≤ len.toNat → s.rxHolds f → frameHeaderValid f len.toNat → frameHeaderLen f ≤ len.toNat →
      frameHeaderLen f ≤ f.length → hdrCksum f (frameHeaderLen f) = be16 f 10 → addrValue f 16 = s.hostIp.toNat →
      ∀ a < frameTotalLen f, s.rxbuf.read a = none → exec (.rxFrame len) s = .fault .undefRead)
    ∧ (exec (.rxFrame len) s = .fault .undefRead → s.ctrlReg = true ∧ 20 ≤ len.toNat
      ∧ ((∃ a < 20, s.rxbuf.read a = none)
        ∨ ∃ f, s.rxHolds f ∧ 20 ≤ f.length ∧ frameHeaderValid f len.toNat ∧ frameHeaderLen f ≤ len.toNat
          ∧ ((∃ a < frameHeaderLen f, s.rxbuf.read a = none)
            ∨ (frameHeaderLen f ≤ f.length ∧ hdrCksum f (frameHeaderLen f) = be16 f 10 ∧ addrValue f 16 = s.hostIp.toNat
              ∧ ∃ a < frameTotalLen f, s.rxbuf.read a = none))))

/-- R192: the same frame run twice gives the same records twice, with the same RESULT. -/
def Obligations.ReceiveTwiceEmitsTwice : Prop :=
  ∀ (len : Half) (s t : State), exec (.rxFrame len) s = .next t →
    ∃ records, t.trace = s.trace ++ records ∧ exec (.rxFrame len) t = .next { t with trace := t.trace ++ records }

/-! TX_BUILD and TX_SEND -/

/-- R211, R212, R213, R214: TX_BUILD emits exactly one frame, with every header field as R211 fills it from PROTO, MF, BUILD_ARG,
TX_DST and HOST_IP, leaves RESULT {TX_BUILT, 1} and leaves ID_NEXT; an unwritten payload byte is UNDEF_READ; over MAXFRAG
bytes it is rejected. -/
def Obligations.BuildEmitsOneFrame : Prop :=
  ∀ (mf : Bool) (proto : Byte) (len : Half) (s : State),
    (∀ payload : List Byte, len.toNat ≤ 1480 → s.txHolds payload → payload.length = len.toNat →
      ∃ frame, frameIs Config.ipv4core frame s.hostIp s.txDst proto s.buildArg.ident mf s.buildArg.offset.toNat payload
        ∧ exec (.txBuild mf proto len) s = .next { s with
          trace := s.trace ++ [.tx (addrAt frame 16) frame],
          result := { code := .txBuilt, count := 1 } })
    ∧ (∀ a < len.toNat, len.toNat ≤ 1480 → s.txbuf.read a = none → exec (.txBuild mf proto len) s = .fault .undefRead)
    ∧ (1480 < len.toNat → exec (.txBuild mf proto len) s
      = .next { s with status := { s.status with cmdErr := true }, result := { code := .cmdRejected, count := 0 } })

/-- R230, R231, R233, R234, R235, R236, R240: TX_SEND of L > 0 written bytes emits ceil(L / 1480) frames; frame k carries payload bytes
1480 k up to at most 1480 of them, at offset 185 k, with MF set on all but the last and the one identification ID_NEXT, which
is then incremented once modulo 65536. -/
def Obligations.SendEmitsFragmentsInOrder : Prop :=
  ∀ (proto : Byte) (len : Half) (s : State) (payload : List Byte), 0 < len.toNat → s.txHolds payload →
    payload.length = len.toNat →
    ∃ frames : List (List Byte), frames.length = (len.toNat + 1479) / 1480
      ∧ exec (.txSend proto len) s = .next { s with
        trace := s.trace ++ frames.map fun frame => .tx (addrAt frame 16) frame,
        idNext := BitVec.ofNat 16 (s.idNext.toNat + 1),
        result := { code := .txSent, count := BitVec.ofNat 16 frames.length } }
      ∧ ∀ k, ∀ h : k < frames.length, frameIs Config.ipv4core frames[k] s.hostIp s.txDst proto s.idNext
        (decide (k + 1 < frames.length)) (k * 185) ((payload.drop (k * 1480)).take 1480)

/-- R238: a zero-length TX_SEND. For either value of P_ZERO_LEN_SEND it increments ID_NEXT once; ONE_EMPTY emits one header-only
frame with MF 0 and offset 0, NONE emits no frame. -/
def Obligations.ZeroLengthSend : Prop :=
  (∀ (p : Params) (proto : Byte) (s : State),
    (p.zeroLenSend = .oneEmpty → ∃ frame, frameIs p frame s.hostIp s.txDst proto s.idNext false 0 []
      ∧ txSend p proto 0 s = .next { s with
        trace := s.trace ++ [.tx (addrAt frame 16) frame],
        idNext := BitVec.ofNat 16 (s.idNext.toNat + 1), result := { code := .txSent, count := 1 } })
    ∧ (p.zeroLenSend = .noFrame → txSend p proto 0 s = .next { s with
        idNext := BitVec.ofNat 16 (s.idNext.toNat + 1), result := { code := .txSent, count := 0 } }))
  ∧ (∀ (proto : Byte) (s : State), exec (.txSend proto 0) s = txSend Config.ipv4core proto 0 s
    ∧ ∃ t, exec (.txSend proto 0) s = .next t ∧ t.idNext = BitVec.ofNat 16 (s.idNext.toNat + 1) ∧ t.result.code = .txSent)

/-- R234, R235, R237, R241: for every admitted MTU, the fragments of a send of L > 0 bytes carry exactly the payload, in order: the
payloads behind the 20-byte headers join to it, each non-final one has MAXFRAG bytes, a multiple of 8, and MF set, the last
has MF clear, each offset is its payload's start in 8-byte units, and all share identification, addresses and protocol. -/
def Obligations.FragmentsReassembleToPayload : Prop :=
  ∀ (p : Params) (proto : Byte) (s : State) (payload : List Byte), p.admitted → 0 < payload.length → payload.length ≤ 65535 →
    s.txHolds payload →
    ∃ (frames : List (List Byte)) (t : State), txSend p proto payload.length s = .next t
      ∧ t.trace = s.trace ++ frames.map (fun frame => .tx (addrAt frame 16) frame)
      ∧ (frames.map fun frame => frame.drop 20).flatten = payload
      ∧ (∀ k, ∀ h : k + 1 < frames.length, (frames[k]).length = p.mtu ∧ (frames[k].drop 20).length % 8 = 0)
      ∧ ∀ k, ∀ h : k < frames.length, frames[k].length ≤ p.mtu ∧ 20 < frames[k].length
        ∧ frameIs p frames[k] s.hostIp s.txDst proto s.idNext (decide (k + 1 < frames.length))
          (((frames.take k).map fun frame => frame.length - 20).sum / 8) (frames[k].drop 20)

/-- R239: TX_SEND reads TXBUF[0..L) and nothing else: an unwritten byte of it is UNDEF_READ, and the bytes from L on make no
difference; TXBUF is never written. -/
def Obligations.SendReadsExactlyItsPayload : Prop :=
  ∀ (proto : Byte) (len : Half) (s : State),
    (∀ a < len.toNat, s.txbuf.read a = none → exec (.txSend proto len) s = .fault .undefRead)
    ∧ (∀ (m : Memory) (t : State), (∀ a < len.toNat, m.read a = s.txbuf.read a) → exec (.txSend proto len) s = .next t →
      t.txbuf = s.txbuf ∧ exec (.txSend proto len) { s with txbuf := m } = .next { t with txbuf := m })

/-- R38, R91, R170, R212, R230, R300: the frame of the three commands. A command leaves CTRL, HOST_IP, TX_DST, BUILD_ARG, both buffers byte for
byte and BUS_ERR alone, appends to the trace, and clears no STATUS bit; TX_SEND leaves STATUS alone; only TX_SEND changes
ID_NEXT. -/
def Obligations.CommandsChangeOnlyOutputs : Prop :=
  ∀ (i : Instr) (s t : State), exec i s = .next t →
    (∃ len, i = .rxFrame len) ∨ (∃ proto len, i = .txSend proto len) ∨ (∃ mf proto len, i = .txBuild mf proto len) →
    t.ctrlReg = s.ctrlReg ∧ t.hostIp = s.hostIp ∧ t.txDst = s.txDst ∧ t.buildArg = s.buildArg ∧ t.responses = s.responses
      ∧ t.host = s.host ∧ (∀ a, t.rxbuf.read a = s.rxbuf.read a ∧ t.txbuf.read a = s.txbuf.read a)
      ∧ s.trace <+: t.trace ∧ t.status.busErr = s.status.busErr
      ∧ (s.status.cmdErr = true → t.status.cmdErr = true) ∧ (s.status.hdrOverrun = true → t.status.hdrOverrun = true)
      ∧ (s.status.stripUnderflow = true → t.status.stripUnderflow = true)
      ∧ ((∃ proto len, i = .txSend proto len) → t.status = s.status)
      ∧ ((∃ mf proto len, i = .txBuild mf proto len) → t.status = { s.status with cmdErr := t.status.cmdErr })
      ∧ ((¬ ∃ proto len, i = .txSend proto len) → t.idNext = s.idNext)

/-- R38, R39, R301: which RESULT each command can leave. -/
def Obligations.CommandResults : Prop :=
  (∀ (len : Half) (s t : State), exec (.rxFrame len) s = .next t → t.result.count = 0
    ∧ t.result.code ∈ [.rxDispatched, .rxUnreachDispatched, .rxDropShort, .rxDropHeader, .rxDropChecksum, .rxDropDest,
      .faultHdrOverrun, .faultStripUnderflow, .cmdRejected])
  ∧ (∀ (proto : Byte) (len : Half) (s t : State), exec (.txSend proto len) s = .next t → t.result.code = .txSent
    ∧ t.result.count.toNat + s.trace.length = t.trace.length)
  ∧ (∀ (mf : Bool) (proto : Byte) (len : Half) (s t : State), exec (.txBuild mf proto len) s = .next t →
    (t.result = { code := .txBuilt, count := 1 } ∧ t.trace.length = s.trace.length + 1)
      ∨ (t.result = { code := .cmdRejected, count := 0 } ∧ t.trace = s.trace))

/-- R38, R39: RESULT as read, COUNT in [31:16], [15:8] zero, and the byte of each code. -/
def Obligations.ResultCodeValues : Prop :=
  (∀ r : Result, r.toWord.toNat = r.count.toNat * 2 ^ 16 + r.code.toByte.toNat)
  ∧ ([.none, .rxDispatched, .rxUnreachDispatched, .rxDropShort, .rxDropHeader, .rxDropChecksum, .rxDropDest, .txSent, .txBuilt,
      .faultHdrOverrun, .faultStripUnderflow, .cmdRejected] : List ResultCode).map ResultCode.toByte
    = [0x00, 0x01, 0x02, 0x10, 0x11, 0x12, 0x13, 0x20, 0x21, 0x30, 0x31, 0x3F]

/-! The machine -/

/-- R80, R345: a step runs the instruction that the host's next transaction decodes to, with the transaction taken off the host's
moves; so it is for the transaction of any well-formed instruction and for the word `withFetchWord` places, numbered as
the model chose (log 9). Rests on logs 1 and 9. -/
def Obligations.StepRunsDecodedInstruction : Prop :=
  ∀ (s : State) (rest : List HostEvent),
    (∀ (request : BitVec 25) (wdata : Word), s.host = .cfg request wdata :: rest →
      step s = exec (decodeRequest request wdata) { s with host := rest })
    ∧ (∀ i : Instr, i.wellFormed = true → s.host = .cfg (encode i).1 (encode i).2 :: rest → step s = exec i { s with host := rest })
    ∧ (∀ (nbits w : Nat) (i : Instr), decodeTableWord nbits w = some i → step (s.withFetchWord nbits w) = exec i s)

/-- R315, R330, R61: a reset pulse gives every register its reset value, unwrites both buffers and empties the trace; with no move
left the block stays as it is. Rests on logs 1, 3 and 4. -/
def Obligations.StepResetsOrIdles : Prop :=
  (∀ (s : State) (rest : List HostEvent), s.host = .reset :: rest → ∃ t, step s = .next t ∧ t.ctrlReg = false
    ∧ t.status = { hdrOverrun := false, stripUnderflow := false, cmdErr := false, busErr := false }
    ∧ t.result = { code := .none, count := 0 } ∧ t.hostIp = 0 ∧ t.idNext = 0 ∧ t.txDst = 0
    ∧ t.buildArg = { ident := 0, offset := 0 } ∧ (∀ a, t.rxbuf.read a = none ∧ t.txbuf.read a = none) ∧ t.trace = []
    ∧ t.host = rest)
  ∧ (∀ s : State, s.host = [] → step s = .next s)

/-- R32, R61: the registers as read right after reset, and the buffers and the trace. -/
def Obligations.ResetState : Prop :=
  (∀ r ∈ [Reg.ctrl, .status, .result, .hostIp, .idNext, .txDst, .buildArg], readReg Config.ipv4core State.reset r = 0)
  ∧ readReg Config.ipv4core State.reset .id = 0x49503401 ∧ readReg Config.ipv4core State.reset .mtu = 0x000005DC
  ∧ readReg Config.ipv4core State.reset .ttl = 0x00000040
  ∧ (∀ a, State.reset.rxbuf.read a = none ∧ State.reset.txbuf.read a = none) ∧ State.reset.trace = []

/-- R332: no instruction clears a STATUS bit or CTRL.REG, or takes ID_NEXT to 0 other than by wrap-around; reset does. -/
def Obligations.OnlyResetClears : Prop :=
  (∀ (i : Instr) (s t : State), exec i s = .next t →
    (s.status.hdrOverrun = true → t.status.hdrOverrun = true)
      ∧ (s.status.stripUnderflow = true → t.status.stripUnderflow = true)
      ∧ (s.status.cmdErr = true → t.status.cmdErr = true) ∧ (s.status.busErr = true → t.status.busErr = true)
      ∧ (s.ctrlReg = true → t.ctrlReg = true) ∧ (t.idNext = 0 → s.idNext = 0 ∨ s.idNext = 0xFFFF))
  ∧ State.reset.status = { hdrOverrun := false, stripUnderflow := false, cmdErr := false, busErr := false }
  ∧ State.reset.ctrlReg = false ∧ State.reset.idNext = 0

/-- R52: no operation reads STATUS or RESULT to decide what it does: with any other values in them the same instruction completes or
faults alike, with the same effect on host state. -/
def Obligations.StatusAndResultSteerNothing : Prop :=
  ∀ (i : Instr) (s : State) (status : Status) (result : Result),
    (∀ t, exec i s = .next t → ∃ u, exec i { s with status := status, result := result } = .next u ∧ t.sameHostState u
      ∧ u.host = t.host ∧ u.responses.length = t.responses.length)
    ∧ (∀ e, exec i s = .fault e → exec i { s with status := status, result := result } = .fault e)

/-- R42, R236: the whole machine's rule for ID_NEXT. A step adds 1 modulo 65536 exactly when the next transaction is a TX_SEND, and
leaves it otherwise; only reset does anything else. -/
def Obligations.IdentificationCountsSends : Prop :=
  ∀ s t : State, step s = .next t → s.host.head? ≠ some .reset →
    ((∃ request wdata rest proto len, s.host = .cfg request wdata :: rest ∧ decodeRequest request wdata = .txSend proto len) →
      t.idNext.toNat = (s.idNext.toNat + 1) % 65536)
    ∧ ((¬ ∃ request wdata rest proto len, s.host = .cfg request wdata :: rest
        ∧ decodeRequest request wdata = .txSend proto len) → t.idNext = s.idNext)

/-- R51, R84: no instruction removes or reorders a record; the trace is empty after reset. -/
def Obligations.TraceOnlyGrows : Prop :=
  (∀ (i : Instr) (s t : State), exec i s = .next t → s.trace <+: t.trace) ∧ State.reset.trace = []

/-- R90, R302: no instruction is refused, and the one fault is UNDEF_READ, which needs an unwritten buffer byte. -/
def Obligations.OnlyUnwrittenBytesFault : Prop :=
  ∀ (i : Instr) (s : State), (∀ r, exec i s ≠ .refused r)
    ∧ (exec i s = .fault .undefRead → ∃ a < 65536, s.rxbuf.read a = none ∨ s.txbuf.read a = none)

/-- R83, R302, R344: where every byte of both buffers has been written, every instruction, of every form, completes. -/
def Obligations.WrittenBuffersAlwaysComplete : Prop :=
  ∀ (i : Instr) (s : State), (∀ a < 65536, s.rxbuf.read a ≠ none ∧ s.txbuf.read a ≠ none) → ∃ t, exec i s = .next t

/-- R49, R50, R70: every step keeps both buffers in canonical form, inside their 65,536 bytes. -/
def Obligations.StepKeepsBuffersCanonical : Prop :=
  ∀ s t : State, s.buffersWf → step s = .next t → t.buffersWf

/-- R120 to R122: every step keeps every record of the trace well-formed: each TX frame carries its own length, at most P_MTU, a valid
header with a verifying checksum, and goes to its destination; each ICMP record goes to its datagram's source. -/
def Obligations.StepKeepsTraceWellFormed : Prop :=
  ∀ s t : State, s.traceWf → step s = .next t → t.traceWf

/-- R37, R38, R240, R266, R300: every step keeps RESULT.COUNT what its code says, and the STATUS bit of a fault or a rejection that RESULT
names set. -/
def Obligations.StepKeepsResultRecorded : Prop :=
  ∀ s t : State, s.result.wf → s.resultRecorded → step s = .next t → t.result.wf ∧ t.resultRecorded

/-- R35, R171: every step keeps this: before registration there is no DISP or ICMP record and no fault of RX_FRAME. -/
def Obligations.StepKeepsRegistrationFirst : Prop :=
  ∀ s t : State, s.registeredFirst → step s = .next t → t.registeredFirst

/-- R61: the invariants hold right after reset. -/
def Obligations.InvariantsHoldAtReset : Prop :=
  State.reset.buffersWf ∧ State.reset.traceWf ∧ State.reset.result.wf ∧ State.reset.resultRecorded ∧ State.reset.registeredFirst

/-- R131, R263: after the writes of LOADRX (LOADTX), the bytes stand in RXBUF (TXBUF) from `off` on, every byte outside them is as it
was, and nothing else has changed. Rests on log 1. -/
def Obligations.LoadPlacesBytes : Prop :=
  ∀ (off : Nat) (bytes : List Byte) (s : State) (rest : List HostEvent), off % 4 = 0 → off + bytes.length ≤ 65536 →
    (s.host = asmLoadRx off bytes ++ rest → ∃ m, core.run (asmLoadRx off bytes).length s
        = .next { s with rxbuf := m, host := rest }
      ∧ m.readRange off bytes.length = some bytes ∧ ∀ a, a < off ∨ off + bytes.length ≤ a → m.read a = s.rxbuf.read a)
    ∧ (s.host = asmLoadTx off bytes ++ rest → ∃ m, core.run (asmLoadTx off bytes).length s
        = .next { s with txbuf := m, host := rest }
      ∧ m.readRange off bytes.length = some bytes ∧ ∀ a, a < off ∨ off + bytes.length ≤ a → m.read a = s.txbuf.read a)
end

