-- ==== Sys2Proof/Laws/Checksum.lean ====
section
/-! SUPPORT. The arithmetic of the checksum unit: what the end-around-carry loop keeps (R151), and the sum of a sequence in parts. -/

namespace Sys2Proof.Machine

/-- One round of the carry loop makes its operand smaller. -/
theorem carry_round_lt {s : Nat} (h : 0xFFFF < s) : s % 0x10000 + s / 0x10000 < s := by omega

/-- The carry loop ends at a 16-bit value when it may run `s` rounds. -/
theorem endAroundCarry_le (fuel s : Nat) (h : s ≤ fuel) : endAroundCarry fuel s ≤ 0xFFFF := by
  induction fuel generalizing s with
  | zero => simp [endAroundCarry]; omega
  | succ fuel ih =>
    simp only [endAroundCarry]
    split
    · exact ih _ (by omega)
    · omega

/-- Each round keeps the value modulo 65535 (R151). -/
theorem endAroundCarry_mod (fuel s : Nat) : endAroundCarry fuel s % 65535 = s % 65535 := by
  induction fuel generalizing s with
  | zero => rfl
  | succ fuel ih =>
    simp only [endAroundCarry]
    split
    · rw [ih]; omega
    · rfl

/-- Each round keeps a positive value positive (R151). -/
theorem endAroundCarry_pos (fuel s : Nat) (h : 0 < s) : 0 < endAroundCarry fuel s := by
  induction fuel generalizing s with
  | zero => exact h
  | succ fuel ih =>
    simp only [endAroundCarry]
    split
    · exact ih _ (by omega)
    · exact h

@[simp] theorem endAroundCarry_zero (fuel : Nat) : endAroundCarry fuel 0 = 0 := by cases fuel <;> rfl

/-- The checksum is the complement of the folded sum. -/
theorem cksum16_toNat (b : List Byte) : (cksum16 b).toNat = 0xFFFF - endAroundCarry (wordSum b) (wordSum b) := by
  have h := endAroundCarry_le (wordSum b) (wordSum b) (Nat.le_refl _)
  rw [cksum16, BitVec.toNat_not, BitVec.toNat_ofNat, Nat.mod_eq_of_lt (by omega)]

/-- The word sum of a sequence of even length followed by another. -/
theorem wordSum_append (a b : List Byte) (h : a.length % 2 = 0) : wordSum (a ++ b) = wordSum a + wordSum b := by
  match a, h with
  | [], _ => simp [wordSum]
  | [x], h => simp at h
  | x :: y :: rest, h =>
    simp only [List.cons_append, wordSum]
    rw [wordSum_append rest b (by simp at h; omega)]
    omega

@[simp] theorem wordSum_nil : wordSum [] = 0 := rfl
@[simp] theorem wordSum_cons_cons (x y : Byte) (rest : List Byte) :
    wordSum (x :: y :: rest) = x.toNat * 256 + y.toNat + wordSum rest := rfl

end Sys2Proof.Machine
end

