-- ==== Sys2Proof/Laws/Memory.lean ====
section
/-! SUPPORT. The laws of a buffer: a read after a write, the canonical form, and what a range read, a word read and a strobed
write answer. None but the canonical-form laws needs the form. -/

namespace Sys2Proof.Machine

/-- A read of the offset just written gives the byte written. -/
@[simp] theorem Memory.read_write_same (m : Memory) (a : Nat) (v : Byte) : (m.write a v).read a = some v := by
  induction m with
  | nil => simp [Memory.write, Memory.read]
  | cons c rest ih =>
    obtain ⟨k, b⟩ := c
    simp only [Memory.write]
    split
    · simp [Memory.read]
    · split
      · simp [Memory.read]
      · next h => simp [Memory.read, Ne.symm h, ih]

/-- A write leaves every other offset alone. -/
theorem Memory.read_write_other (m : Memory) {a b : Nat} (v : Byte) (h : b ≠ a) : (m.write a v).read b = m.read b := by
  induction m with
  | nil => simp [Memory.write, Memory.read, Ne.symm h]
  | cons c rest ih =>
    obtain ⟨k, x⟩ := c
    simp only [Memory.write]
    split
    · simp [Memory.read, Ne.symm h]
    · split
      · next hk => subst hk; simp [Memory.read, Ne.symm h]
      · simp [Memory.read, ih]

/-- The offsets of a written buffer are the old ones and the new one. -/
theorem Memory.mem_write (m : Memory) (a : Nat) (v : Byte) {c : Host.Cell} (h : c ∈ m.write a v) : c = (a, v) ∨ c ∈ m := by
  induction m with
  | nil => simpa [Memory.write] using h
  | cons d rest ih =>
    obtain ⟨k, x⟩ := d
    simp only [Memory.write] at h
    split at h
    · simpa using h
    · split at h
      · rcases List.mem_cons.1 h with h | h
        · exact .inl h
        · exact .inr (List.mem_cons_of_mem _ h)
      · rcases List.mem_cons.1 h with h | h
        · exact .inr (by simp [h])
        · exact (ih h).imp_right (List.mem_cons_of_mem _)

/-- A write keeps the offsets strictly rising. -/
theorem Memory.pairwise_write (m : Memory) (a : Nat) (v : Byte) (h : m.Pairwise fun c d => c.1 < d.1) :
    (m.write a v).Pairwise fun c d => c.1 < d.1 := by
  induction m with
  | nil => simp [Memory.write]
  | cons c rest ih =>
    obtain ⟨k, x⟩ := c
    obtain ⟨hk, hr⟩ := List.pairwise_cons.1 h
    simp only [Memory.write]
    split
    · next hlt =>
      refine List.pairwise_cons.2 ⟨fun d hd => ?_, h⟩
      rcases List.mem_cons.1 hd with rfl | hd
      · exact hlt
      · exact hlt.trans (hk d hd)
    · split
      · next heq => subst heq; exact List.pairwise_cons.2 ⟨hk, hr⟩
      · next hlt hne =>
        refine List.pairwise_cons.2 ⟨fun d hd => ?_, ih hr⟩
        rcases Memory.mem_write rest a v hd with rfl | hd
        · simp only at hlt ⊢; omega
        · exact hk d hd

/-- A write inside the buffer keeps the canonical form. -/
theorem Memory.wf_write {m : Memory} {a : Nat} (v : Byte) (h : m.wf) (ha : a < bufferBytes) : (m.write a v).wf := by
  refine ⟨Memory.pairwise_write m a v h.1, fun c hc => ?_⟩
  rcases Memory.mem_write m a v hc with rfl | hc
  · exact ha
  · exact h.2 c hc

/-- The buffer after reset is in canonical form. -/
theorem Memory.wf_nil : Memory.wf [] := ⟨List.Pairwise.nil, by simp⟩

/-- One lane's store keeps the canonical form. -/
theorem Memory.wf_writeLane {m : Memory} {o : Nat} (w : Word) (strb : BitVec 4) {k : Nat} (h : m.wf)
    (hk : o + k < bufferBytes) : (m.writeLane o w strb k).wf := by
  unfold Memory.writeLane
  split
  · exact Memory.wf_write _ h hk
  · exact h

/-- A strobed write inside the buffer keeps the canonical form. -/
theorem Memory.wf_writeStrobed {m : Memory} {o : Nat} (w : Word) (strb : BitVec 4) (h : m.wf) (ho : o + 3 < bufferBytes) :
    (m.writeStrobed o w strb).wf :=
  Memory.wf_writeLane _ _ (Memory.wf_writeLane _ _ (Memory.wf_writeLane _ _ (Memory.wf_writeLane _ _ h (by omega))
    (by omega)) (by omega)) (by omega)

/-- One lane's store, read back. -/
theorem Memory.read_writeLane (m : Memory) (o : Nat) (w : Word) (strb : BitVec 4) (k a : Nat) :
    (m.writeLane o w strb k).read a = if a = o + k ∧ strb.getLsbD k = true then some (lane w k) else m.read a := by
  unfold Memory.writeLane
  split
  · next hs =>
    by_cases ha : a = o + k
    · subst ha; simp [hs]
    · simp [Memory.read_write_other m _ ha, ha]
  · next hs => simp [hs]

/-- A strobed write stores exactly the lanes whose strobe bit is set (R263). -/
theorem Memory.read_writeStrobed (m : Memory) (o : Nat) (w : Word) (strb : BitVec 4) (a : Nat) :
    (m.writeStrobed o w strb).read a =
      if a = o + 3 ∧ strb.getLsbD 3 = true then some (lane w 3)
      else if a = o + 2 ∧ strb.getLsbD 2 = true then some (lane w 2)
      else if a = o + 1 ∧ strb.getLsbD 1 = true then some (lane w 1)
      else if a = o + 0 ∧ strb.getLsbD 0 = true then some (lane w 0)
      else m.read a := by
  simp only [Memory.writeStrobed, Memory.read_writeLane]

/-- A strobed write leaves every byte outside its word alone. -/
theorem Memory.read_writeStrobed_outside (m : Memory) {o a : Nat} (w : Word) (strb : BitVec 4) (h : a < o ∨ o + 3 < a) :
    (m.writeStrobed o w strb).read a = m.read a := by
  rw [Memory.read_writeStrobed, if_neg (by omega), if_neg (by omega), if_neg (by omega), if_neg (by omega)]

@[simp] theorem Memory.readRange_zero (m : Memory) (off : Nat) : m.readRange off 0 = some [] := rfl

/-- What a range read answers: its first byte, then the rest. -/
theorem Memory.readRange_succ_eq_some {m : Memory} {off n : Nat} {b : List Byte} :
    m.readRange off (n + 1) = some b ↔ ∃ x xs, b = x :: xs ∧ m.read off = some x ∧ m.readRange (off + 1) n = some xs := by
  simp only [Memory.readRange]
  cases m.read off with
  | none => simp
  | some x =>
    cases m.readRange (off + 1) n with
    | none => simp
    | some xs => simp [eq_comm]

/-- A range read of `n` bytes answers `n` bytes. -/
theorem Memory.readRange_length {m : Memory} {off n : Nat} {b : List Byte} (h : m.readRange off n = some b) :
    b.length = n := by
  induction n generalizing off b with
  | zero => simp [Memory.readRange] at h; simp [← h]
  | succ n ih =>
    obtain ⟨x, xs, rfl, -, hxs⟩ := Memory.readRange_succ_eq_some.1 h
    simp [ih hxs]

/-- A range read answers `b` exactly when `b` has that many bytes and each is the buffer's. -/
theorem Memory.readRange_eq_some_iff {m : Memory} {off n : Nat} {b : List Byte} :
    m.readRange off n = some b ↔ b.length = n ∧ ∀ i (h : i < b.length), m.read (off + i) = some b[i] := by
  induction n generalizing off b with
  | zero =>
    constructor
    · intro h; simp [Memory.readRange] at h; subst h; simp
    · rintro ⟨h, -⟩; simp [List.length_eq_zero_iff.1 h]
  | succ n ih =>
    rw [Memory.readRange_succ_eq_some]
    constructor
    · rintro ⟨x, xs, rfl, hx, hxs⟩
      obtain ⟨hl, hi⟩ := ih.1 hxs
      refine ⟨by simp [hl], fun i h => ?_⟩
      cases i with
      | zero => simpa using hx
      | succ i => simpa [Nat.add_assoc, Nat.add_comm 1] using hi i (by simpa using h)
    · rintro ⟨hl, hi⟩
      cases b with
      | nil => simp at hl
      | cons x xs =>
        refine ⟨x, xs, rfl, hi 0 (by simp), ih.2 ⟨by simpa using hl, fun i h => ?_⟩⟩
        rw [Nat.add_assoc, Nat.add_comm 1 i]
        exact hi (i + 1) (by simpa using h)

/-- Where a range is readable, so is every part of it, and it reads as that part of the bytes. -/
theorem Memory.readRange_sub {m : Memory} {off n : Nat} {b : List Byte} (h : m.readRange off n = some b) {i k : Nat}
    (hk : i + k ≤ n) : m.readRange (off + i) k = some ((b.drop i).take k) := by
  obtain ⟨hl, hr⟩ := Memory.readRange_eq_some_iff.1 h
  refine Memory.readRange_eq_some_iff.2 ⟨by simp; omega, fun j hj => ?_⟩
  simp only [List.length_take, List.length_drop] at hj
  rw [Nat.add_assoc, hr (i + j) (by omega)]
  simp

/-- A readable range's first bytes. -/
theorem Memory.readRange_take {m : Memory} {n : Nat} {b : List Byte} (h : m.readRange 0 n = some b) {k : Nat} (hk : k ≤ n) :
    m.readRange 0 k = some (b.take k) := by
  simpa using Memory.readRange_sub h (i := 0) (k := k) (by omega)

/-- A range read depends on the bytes of the range alone. -/
theorem Memory.readRange_congr {m m' : Memory} {off n : Nat} (h : ∀ i < n, m'.read (off + i) = m.read (off + i)) :
    m'.readRange off n = m.readRange off n := by
  induction n generalizing off with
  | zero => rfl
  | succ n ih =>
    have h0 := h 0 (by omega)
    have hs : m'.readRange (off + 1) n = m.readRange (off + 1) n :=
      ih fun i hi => by simpa [Nat.add_assoc, Nat.add_comm 1] using h (i + 1) (by omega)
    simp only [Memory.readRange, hs]
    simp only [Nat.add_zero] at h0
    rw [h0]

/-- A range read is undefined exactly when one of its bytes is unwritten (R90). -/
theorem Memory.readRange_eq_none_iff {m : Memory} {off n : Nat} :
    m.readRange off n = none ↔ ∃ i < n, m.read (off + i) = none := by
  induction n generalizing off with
  | zero => simp
  | succ n ih =>
    constructor
    · intro h
      cases h0 : m.read off with
      | none => exact ⟨0, by omega, by simpa using h0⟩
      | some x =>
        cases hs : m.readRange (off + 1) n with
        | none =>
          obtain ⟨i, hi, hr⟩ := ih.1 hs
          exact ⟨i + 1, by omega, by simpa [Nat.add_assoc, Nat.add_comm 1] using hr⟩
        | some xs => simp [Memory.readRange, h0, hs] at h
    · rintro ⟨i, hi, hr⟩
      by_contra hne
      obtain ⟨b, hb⟩ := Option.ne_none_iff_exists'.1 hne
      obtain ⟨hl, hall⟩ := Memory.readRange_eq_some_iff.1 hb
      simp [hall i (by omega)] at hr

/-- A word read answers the four bytes in lane order (R264). -/
theorem Memory.readWord_eq_some_iff {m : Memory} {o : Nat} {w : Word} :
    m.readWord o = some w ↔ ∃ b0 b1 b2 b3, m.read o = some b0 ∧ m.read (o + 1) = some b1 ∧ m.read (o + 2) = some b2
      ∧ m.read (o + 3) = some b3 ∧ wordOfLanes b0 b1 b2 b3 = w := by
  unfold Memory.readWord
  cases m.read o <;> cases m.read (o + 1) <;> cases m.read (o + 2) <;> cases m.read (o + 3) <;> simp

/-- A word read is undefined exactly when one of the four bytes is unwritten (R264). -/
theorem Memory.readWord_eq_none_iff {m : Memory} {o : Nat} :
    m.readWord o = none ↔ m.read o = none ∨ m.read (o + 1) = none ∨ m.read (o + 2) = none ∨ m.read (o + 3) = none := by
  unfold Memory.readWord
  cases m.read o <;> cases m.read (o + 1) <;> cases m.read (o + 2) <;> cases m.read (o + 3) <;> simp

/-- What going on with bytes answers: a next state comes from the bytes read. -/
theorem withBytes_eq_next_iff {m : Memory} {off n : Nat} {k : List Byte → Effect} {t : State} :
    withBytes m off n k = .next t ↔ ∃ b, m.readRange off n = some b ∧ k b = .next t := by
  unfold withBytes
  cases m.readRange off n <;> simp

/-- Going on with bytes that are all written. -/
theorem withBytes_of_some {m : Memory} {off n : Nat} {b : List Byte} (h : m.readRange off n = some b)
    (k : List Byte → Effect) : withBytes m off n k = k b := by
  simp [withBytes, h]

/-- Going on with bytes of which one is unwritten is UNDEF_READ (R302). -/
theorem withBytes_of_none {m : Memory} {off n : Nat} (h : m.readRange off n = none) (k : List Byte → Effect) :
    withBytes m off n k = .fault .undefRead := by
  simp [withBytes, h]

/-- A range from the start of a buffer has no value exactly where one of its bytes has none (R90). -/
theorem Memory.readRange_zero_eq_none_iff {m : Memory} {n : Nat} : m.readRange 0 n = none ↔ ∃ a < n, m.read a = none := by
  simp [Memory.readRange_eq_none_iff]

/-- Where going on with the bytes never faults, reading them faults exactly where one of them is unwritten (R90, R302). -/
theorem withBytes_eq_fault_iff {m : Memory} {n : Nat} {k : List Byte → Effect} (hk : ∀ b, k b ≠ .fault .undefRead) :
    withBytes m 0 n k = .fault .undefRead ↔ ∃ a < n, m.read a = none := by
  rw [← Memory.readRange_zero_eq_none_iff]
  cases hr : m.readRange 0 n with
  | none => simp [withBytes_of_none hr]
  | some b => simp [withBytes_of_some hr, hk b]

end Sys2Proof.Machine
end

