-- ==== Sys2Proof/Laws/State.lean ====
section
/-! SUPPORT. One lemma per field per update of State, so that no later proof unfolds a record update. -/

namespace Sys2Proof.Machine

variable (s : State)

/-! `State.emit` -/

@[simp] theorem State.emit_ctrlReg (r : Record) : (s.emit r).ctrlReg = s.ctrlReg := rfl
@[simp] theorem State.emit_status (r : Record) : (s.emit r).status = s.status := rfl
@[simp] theorem State.emit_result (r : Record) : (s.emit r).result = s.result := rfl
@[simp] theorem State.emit_hostIp (r : Record) : (s.emit r).hostIp = s.hostIp := rfl
@[simp] theorem State.emit_idNext (r : Record) : (s.emit r).idNext = s.idNext := rfl
@[simp] theorem State.emit_txDst (r : Record) : (s.emit r).txDst = s.txDst := rfl
@[simp] theorem State.emit_buildArg (r : Record) : (s.emit r).buildArg = s.buildArg := rfl
@[simp] theorem State.emit_rxbuf (r : Record) : (s.emit r).rxbuf = s.rxbuf := rfl
@[simp] theorem State.emit_txbuf (r : Record) : (s.emit r).txbuf = s.txbuf := rfl
@[simp] theorem State.emit_trace (r : Record) : (s.emit r).trace = s.trace ++ [r] := rfl
@[simp] theorem State.emit_responses (r : Record) : (s.emit r).responses = s.responses := rfl
@[simp] theorem State.emit_host (r : Record) : (s.emit r).host = s.host := rfl

/-! `State.finish` -/

@[simp] theorem State.finish_ctrlReg (c : ResultCode) (n : Half) : (s.finish c n).ctrlReg = s.ctrlReg := rfl
@[simp] theorem State.finish_status (c : ResultCode) (n : Half) : (s.finish c n).status = s.status := rfl
@[simp] theorem State.finish_result (c : ResultCode) (n : Half) : (s.finish c n).result = { code := c, count := n } := rfl
@[simp] theorem State.finish_hostIp (c : ResultCode) (n : Half) : (s.finish c n).hostIp = s.hostIp := rfl
@[simp] theorem State.finish_idNext (c : ResultCode) (n : Half) : (s.finish c n).idNext = s.idNext := rfl
@[simp] theorem State.finish_txDst (c : ResultCode) (n : Half) : (s.finish c n).txDst = s.txDst := rfl
@[simp] theorem State.finish_buildArg (c : ResultCode) (n : Half) : (s.finish c n).buildArg = s.buildArg := rfl
@[simp] theorem State.finish_rxbuf (c : ResultCode) (n : Half) : (s.finish c n).rxbuf = s.rxbuf := rfl
@[simp] theorem State.finish_txbuf (c : ResultCode) (n : Half) : (s.finish c n).txbuf = s.txbuf := rfl
@[simp] theorem State.finish_trace (c : ResultCode) (n : Half) : (s.finish c n).trace = s.trace := rfl
@[simp] theorem State.finish_responses (c : ResultCode) (n : Half) : (s.finish c n).responses = s.responses := rfl
@[simp] theorem State.finish_host (c : ResultCode) (n : Half) : (s.finish c n).host = s.host := rfl

/-! `State.raiseFault` -/

@[simp] theorem State.raiseFault_ctrlReg (k : HwFault) : (s.raiseFault k).ctrlReg = s.ctrlReg := rfl
@[simp] theorem State.raiseFault_status (k : HwFault) : (s.raiseFault k).status = s.status.setFault k := rfl
@[simp] theorem State.raiseFault_result (k : HwFault) : (s.raiseFault k).result = { code := k.code, count := 0 } := rfl
@[simp] theorem State.raiseFault_hostIp (k : HwFault) : (s.raiseFault k).hostIp = s.hostIp := rfl
@[simp] theorem State.raiseFault_idNext (k : HwFault) : (s.raiseFault k).idNext = s.idNext := rfl
@[simp] theorem State.raiseFault_txDst (k : HwFault) : (s.raiseFault k).txDst = s.txDst := rfl
@[simp] theorem State.raiseFault_buildArg (k : HwFault) : (s.raiseFault k).buildArg = s.buildArg := rfl
@[simp] theorem State.raiseFault_rxbuf (k : HwFault) : (s.raiseFault k).rxbuf = s.rxbuf := rfl
@[simp] theorem State.raiseFault_txbuf (k : HwFault) : (s.raiseFault k).txbuf = s.txbuf := rfl
@[simp] theorem State.raiseFault_trace (k : HwFault) : (s.raiseFault k).trace = s.trace := rfl
@[simp] theorem State.raiseFault_responses (k : HwFault) : (s.raiseFault k).responses = s.responses := rfl
@[simp] theorem State.raiseFault_host (k : HwFault) : (s.raiseFault k).host = s.host := rfl

/-! `State.reject` -/

@[simp] theorem State.reject_ctrlReg : s.reject.ctrlReg = s.ctrlReg := rfl
@[simp] theorem State.reject_status : s.reject.status = s.status.setCmdErr := rfl
@[simp] theorem State.reject_result : s.reject.result = { code := .cmdRejected, count := 0 } := rfl
@[simp] theorem State.reject_hostIp : s.reject.hostIp = s.hostIp := rfl
@[simp] theorem State.reject_idNext : s.reject.idNext = s.idNext := rfl
@[simp] theorem State.reject_txDst : s.reject.txDst = s.txDst := rfl
@[simp] theorem State.reject_buildArg : s.reject.buildArg = s.buildArg := rfl
@[simp] theorem State.reject_rxbuf : s.reject.rxbuf = s.rxbuf := rfl
@[simp] theorem State.reject_txbuf : s.reject.txbuf = s.txbuf := rfl
@[simp] theorem State.reject_trace : s.reject.trace = s.trace := rfl
@[simp] theorem State.reject_responses : s.reject.responses = s.responses := rfl
@[simp] theorem State.reject_host : s.reject.host = s.host := rfl

/-! `State.busErr` -/

@[simp] theorem State.busErr_ctrlReg : s.busErr.ctrlReg = s.ctrlReg := rfl
@[simp] theorem State.busErr_status : s.busErr.status = s.status.setBusErr := rfl
@[simp] theorem State.busErr_result : s.busErr.result = s.result := rfl
@[simp] theorem State.busErr_hostIp : s.busErr.hostIp = s.hostIp := rfl
@[simp] theorem State.busErr_idNext : s.busErr.idNext = s.idNext := rfl
@[simp] theorem State.busErr_txDst : s.busErr.txDst = s.txDst := rfl
@[simp] theorem State.busErr_buildArg : s.busErr.buildArg = s.buildArg := rfl
@[simp] theorem State.busErr_rxbuf : s.busErr.rxbuf = s.rxbuf := rfl
@[simp] theorem State.busErr_txbuf : s.busErr.txbuf = s.txbuf := rfl
@[simp] theorem State.busErr_trace : s.busErr.trace = s.trace := rfl
@[simp] theorem State.busErr_responses : s.busErr.responses = s.responses := rfl
@[simp] theorem State.busErr_host : s.busErr.host = s.host := rfl

/-! `State.respond` -/

@[simp] theorem State.respond_ctrlReg (w : Word) : (s.respond w).ctrlReg = s.ctrlReg := rfl
@[simp] theorem State.respond_status (w : Word) : (s.respond w).status = s.status := rfl
@[simp] theorem State.respond_result (w : Word) : (s.respond w).result = s.result := rfl
@[simp] theorem State.respond_hostIp (w : Word) : (s.respond w).hostIp = s.hostIp := rfl
@[simp] theorem State.respond_idNext (w : Word) : (s.respond w).idNext = s.idNext := rfl
@[simp] theorem State.respond_txDst (w : Word) : (s.respond w).txDst = s.txDst := rfl
@[simp] theorem State.respond_buildArg (w : Word) : (s.respond w).buildArg = s.buildArg := rfl
@[simp] theorem State.respond_rxbuf (w : Word) : (s.respond w).rxbuf = s.rxbuf := rfl
@[simp] theorem State.respond_txbuf (w : Word) : (s.respond w).txbuf = s.txbuf := rfl
@[simp] theorem State.respond_trace (w : Word) : (s.respond w).trace = s.trace := rfl
@[simp] theorem State.respond_responses (w : Word) : (s.respond w).responses = s.responses ++ [w] := rfl
@[simp] theorem State.respond_host (w : Word) : (s.respond w).host = s.host := rfl

/-! `State.completeSend` -/

@[simp] theorem State.completeSend_ctrlReg (fs : List Record) : (s.completeSend fs).ctrlReg = s.ctrlReg := rfl
@[simp] theorem State.completeSend_status (fs : List Record) : (s.completeSend fs).status = s.status := rfl
@[simp] theorem State.completeSend_result (fs : List Record) : (s.completeSend fs).result = { code := .txSent, count := BitVec.ofNat 16 fs.length } := rfl
@[simp] theorem State.completeSend_hostIp (fs : List Record) : (s.completeSend fs).hostIp = s.hostIp := rfl
@[simp] theorem State.completeSend_idNext (fs : List Record) : (s.completeSend fs).idNext = s.idNext + 1 := rfl
@[simp] theorem State.completeSend_txDst (fs : List Record) : (s.completeSend fs).txDst = s.txDst := rfl
@[simp] theorem State.completeSend_buildArg (fs : List Record) : (s.completeSend fs).buildArg = s.buildArg := rfl
@[simp] theorem State.completeSend_rxbuf (fs : List Record) : (s.completeSend fs).rxbuf = s.rxbuf := rfl
@[simp] theorem State.completeSend_txbuf (fs : List Record) : (s.completeSend fs).txbuf = s.txbuf := rfl
@[simp] theorem State.completeSend_trace (fs : List Record) : (s.completeSend fs).trace = s.trace ++ fs := rfl
@[simp] theorem State.completeSend_responses (fs : List Record) : (s.completeSend fs).responses = s.responses := rfl
@[simp] theorem State.completeSend_host (fs : List Record) : (s.completeSend fs).host = s.host := rfl

/-! `State.restart` -/

@[simp] theorem State.restart_ctrlReg : s.restart.ctrlReg = State.reset.ctrlReg := rfl
@[simp] theorem State.restart_status : s.restart.status = State.reset.status := rfl
@[simp] theorem State.restart_result : s.restart.result = State.reset.result := rfl
@[simp] theorem State.restart_hostIp : s.restart.hostIp = State.reset.hostIp := rfl
@[simp] theorem State.restart_idNext : s.restart.idNext = State.reset.idNext := rfl
@[simp] theorem State.restart_txDst : s.restart.txDst = State.reset.txDst := rfl
@[simp] theorem State.restart_buildArg : s.restart.buildArg = State.reset.buildArg := rfl
@[simp] theorem State.restart_rxbuf : s.restart.rxbuf = State.reset.rxbuf := rfl
@[simp] theorem State.restart_txbuf : s.restart.txbuf = State.reset.txbuf := rfl
@[simp] theorem State.restart_trace : s.restart.trace = State.reset.trace := rfl
@[simp] theorem State.restart_responses : s.restart.responses = State.reset.responses := rfl
@[simp] theorem State.restart_host : s.restart.host = s.host := rfl

/-! STATUS bits: each setter sets its own bit and keeps the others (R36, R37). -/

@[simp] theorem Status.setCmdErr_hdrOverrun (f : Status) : f.setCmdErr.hdrOverrun = f.hdrOverrun := rfl
@[simp] theorem Status.setCmdErr_stripUnderflow (f : Status) : f.setCmdErr.stripUnderflow = f.stripUnderflow := rfl
@[simp] theorem Status.setCmdErr_cmdErr (f : Status) : f.setCmdErr.cmdErr = true := rfl
@[simp] theorem Status.setCmdErr_busErr (f : Status) : f.setCmdErr.busErr = f.busErr := rfl
@[simp] theorem Status.setBusErr_hdrOverrun (f : Status) : f.setBusErr.hdrOverrun = f.hdrOverrun := rfl
@[simp] theorem Status.setBusErr_stripUnderflow (f : Status) : f.setBusErr.stripUnderflow = f.stripUnderflow := rfl
@[simp] theorem Status.setBusErr_cmdErr (f : Status) : f.setBusErr.cmdErr = f.cmdErr := rfl
@[simp] theorem Status.setBusErr_busErr (f : Status) : f.setBusErr.busErr = true := rfl
@[simp] theorem Status.setFault_hdrOverrun (f : Status) (k : HwFault) :
    (f.setFault k).hdrOverrun = (f.hdrOverrun || k == .hdrOverrun) := by cases k <;> simp [Status.setFault]
@[simp] theorem Status.setFault_stripUnderflow (f : Status) (k : HwFault) :
    (f.setFault k).stripUnderflow = (f.stripUnderflow || k == .stripUnderflow) := by cases k <;> simp [Status.setFault]
@[simp] theorem Status.setFault_cmdErr (f : Status) (k : HwFault) : (f.setFault k).cmdErr = f.cmdErr := by cases k <;> rfl
@[simp] theorem Status.setFault_busErr (f : Status) (k : HwFault) : (f.setFault k).busErr = f.busErr := by cases k <;> rfl
@[simp] theorem HwFault.code_hdrOverrun : HwFault.hdrOverrun.code = .faultHdrOverrun := rfl
@[simp] theorem HwFault.code_stripUnderflow : HwFault.stripUnderflow.code = .faultStripUnderflow := rfl

end Sys2Proof.Machine
end

