-- ==== Sys2Proof/Laws/Transmit.lean ====
section
/-! SUPPORT. Everything TX_BUILD and TX_SEND can do, the shape of a built frame, and one round of the fragment loop. -/

namespace Sys2Proof.Machine

variable {p : Params} {s t : State} {proto : Byte} {len : Nat}

/-- Every header IPV4CORE builds has 20 bytes (R107). -/
@[simp] theorem outHeader_length (p : Params) (src dst : IpAddr) (proto : Byte) (ident : Half) (mf : Bool) (off : BitVec 13)
    (n : Nat) (c : Half) : (outHeader p src dst proto ident mf off n c).length = 20 := rfl

@[simp] theorem builtHeader_length (p : Params) (src dst : IpAddr) (proto : Byte) (ident : Half) (mf : Bool) (off : BitVec 13)
    (n : Nat) : (builtHeader p src dst proto ident mf off n).length = 20 := rfl

/-- TX_BUILD: a length rejection, or one frame (R212, R213). -/
theorem txBuild_cases {mf : Bool} (e : txBuild p mf proto len s = .next t) :
    (p.maxFrag < len ∧ t = s.reject)
      ∨ (len ≤ p.maxFrag ∧ ∃ payload, s.txbuf.readRange 0 len = some payload ∧
        t = (s.emit (buildFrame p s.hostIp payload (ipBytes s.txDst) proto s.buildArg.ident mf s.buildArg.offset)).finish
          .txBuilt 1) := by
  unfold txBuild at e
  split at e
  · next hl => exact .inl ⟨hl, by simpa using e.symm⟩
  · next hl =>
    obtain ⟨payload, hp, e⟩ := withBytes_eq_next_iff.1 e
    exact .inr ⟨Nat.le_of_not_lt hl, payload, hp, by simpa using e.symm⟩

/-- TX_SEND: a zero-length send, or the frames of the loop (R230, R238). -/
theorem txSend_cases (e : txSend p proto len s = .next t) :
    (len = 0 ∧ t = s.completeSend (zeroLenFrames p s proto))
      ∨ (0 < len ∧ ∃ frames, sendLoop p s proto len len 0 0 = some frames ∧ t = s.completeSend frames) := by
  unfold txSend at e
  split at e
  · next hl => exact .inl ⟨hl, by simpa using e.symm⟩
  · next hl =>
    cases hf : sendLoop p s proto len len 0 0 with
    | none => simp [hf] at e
    | some frames => exact .inr ⟨Nat.pos_of_ne_zero hl, frames, rfl, by simpa [hf] using e.symm⟩

/-- TX_SEND of a payload whose frames the loop gives. -/
theorem txSend_of_frames {frames : List Record} (hl : 0 < len) (hf : sendLoop p s proto len len 0 0 = some frames) :
    txSend p proto len s = .next (s.completeSend frames) := by
  simp [txSend, Nat.pos_iff_ne_zero.1 hl, hf]

/-- The loop ends when no byte remains (R232). -/
theorem sendLoop_done (fuel : Nat) {cur : Nat} (off : Nat) (h : len ≤ cur) :
    sendLoop p s proto len fuel cur off = some [] := by
  cases fuel with
  | zero => rfl
  | succ fuel => simp [sendLoop, Nat.sub_eq_zero_of_le h]

/-- One round of the loop (R232 to R235): the fragment's bytes, its frame, and the rest. -/
theorem sendLoop_round {fuel cur off : Nat} {frames : List Record} (h : cur < len) :
    sendLoop p s proto len (fuel + 1) cur off = some frames ↔
      ∃ payload rest, s.txbuf.readRange cur (min (len - cur) p.maxFrag) = some payload
        ∧ sendLoop p s proto len fuel (cur + min (len - cur) p.maxFrag) (off + min (len - cur) p.maxFrag / 8) = some rest
        ∧ frames = sendFrame p s proto payload (decide (p.maxFrag < len - cur)) off :: rest := by
  have hne : len - cur ≠ 0 := by omega
  simp only [sendLoop, hne, if_false]
  cases s.txbuf.readRange cur (min (len - cur) p.maxFrag) with
  | none => simp
  | some payload =>
    cases sendLoop p s proto len fuel (cur + min (len - cur) p.maxFrag) (off + min (len - cur) p.maxFrag / 8) with
    | none => simp
    | some rest => simp [eq_comm]

end Sys2Proof.Machine
end

