-- ==== Sys2Proof/Laws/Decode.lean ====
section
/-! SUPPORT. What the decoder answers on the words the encoder writes, and everything it can answer on any word. -/

namespace Sys2Proof

/-- The bits of an appended word, as numbers. -/
theorem append_toNat {m n : Nat} (x : BitVec m) (y : BitVec n) : (x ++ y).toNat = x.toNat * 2 ^ n + y.toNat := by
  rw [BitVec.toNat_append, Nat.shiftLeft_eq, Nat.mul_comm, ← Nat.two_pow_add_eq_or_of_lt y.isLt]

theorem rxFrameWord_toNat (len : Half) : (rxFrameWord len).toNat = 0x10000000 + len.toNat := by
  simp only [rxFrameWord, append_toNat]; simp

theorem txSendWord_toNat (proto : Byte) (len : Half) :
    (txSendWord proto len).toNat = 0x20000000 + proto.toNat * 65536 + len.toNat := by
  simp only [txSendWord, append_toNat]; simp; omega

theorem txBuildWord_toNat (mf : Bool) (proto : Byte) (len : Half) :
    (txBuildWord mf proto len).toNat = 0x30000000 + mf.toNat * 16777216 + proto.toNat * 65536 + len.toNat := by
  simp only [txBuildWord, append_toNat]; simp; omega

theorem encodeRequest_toNat (we : Bool) (strb : BitVec 4) (addr : CfgAddr) :
    (encodeRequest we strb addr).toNat = we.toNat * 16777216 + strb.toNat * 1048576 + addr.toNat := by
  simp only [encodeRequest, append_toNat]; simp; omega

/-- A field of a word, as a number. -/
theorem field_toNat {n : Nat} (w : BitVec n) (lo len : Nat) : (w.extractLsb' lo len).toNat = w.toNat / 2 ^ lo % 2 ^ len := by
  simp [BitVec.extractLsb'_toNat, Nat.shiftRight_eq_div_pow]

/-- A bit of a word, as a number. -/
theorem bit_eq {n : Nat} (w : BitVec n) (i : Nat) : w.getLsbD i = decide (w.toNat / 2 ^ i % 2 = 1) := by
  rw [BitVec.getLsbD, Nat.testBit_eq_decide_div_mod_eq]

@[simp] theorem requestWe_encodeRequest (we : Bool) (strb : BitVec 4) (addr : CfgAddr) :
    requestWe (encodeRequest we strb addr) = we := by
  have h1 := strb.isLt
  have h2 := addr.isLt
  rw [requestWe, bit_eq, encodeRequest_toNat]
  cases we <;> simp <;> omega

@[simp] theorem requestStrb_encodeRequest (we : Bool) (strb : BitVec 4) (addr : CfgAddr) :
    requestStrb (encodeRequest we strb addr) = strb := by
  have h1 := strb.isLt
  have h2 := addr.isLt
  have h3 := we.toNat_le
  apply BitVec.eq_of_toNat_eq
  rw [requestStrb, field_toNat, encodeRequest_toNat]
  omega

@[simp] theorem requestAddr_encodeRequest (we : Bool) (strb : BitVec 4) (addr : CfgAddr) :
    requestAddr (encodeRequest we strb addr) = addr := by
  have h2 := addr.isLt
  apply BitVec.eq_of_toNat_eq
  rw [requestAddr, field_toNat, encodeRequest_toNat]
  omega

/-- The RX_FRAME word decodes to RX_FRAME with its length (R111). -/
@[simp] theorem decodeCommand_rxFrameWord (len : Half) : decodeCommand (rxFrameWord len) = .ok (.rxFrame len) := by
  have h := len.isLt
  have h1 : commandOp (rxFrameWord len) = 1 := by
    apply BitVec.eq_of_toNat_eq; rw [commandOp, field_toNat, rxFrameWord_toNat]; simp; omega
  have h2 : (rxFrameWord len).extractLsb' 16 12 = 0 := by
    apply BitVec.eq_of_toNat_eq; rw [field_toNat, rxFrameWord_toNat]; simp; omega
  have h3 : commandLen (rxFrameWord len) = len := by
    apply BitVec.eq_of_toNat_eq; rw [commandLen, field_toNat, rxFrameWord_toNat]; omega
  simp [decodeCommand, h1, h2, h3]

/-- The TX_SEND word decodes to TX_SEND with its operands (R112). -/
@[simp] theorem decodeCommand_txSendWord (proto : Byte) (len : Half) :
    decodeCommand (txSendWord proto len) = .ok (.txSend proto len) := by
  have h := len.isLt
  have h' := proto.isLt
  have h1 : commandOp (txSendWord proto len) = 2 := by
    apply BitVec.eq_of_toNat_eq; rw [commandOp, field_toNat, txSendWord_toNat]; simp; omega
  have h2 : (txSendWord proto len).extractLsb' 24 4 = 0 := by
    apply BitVec.eq_of_toNat_eq; rw [field_toNat, txSendWord_toNat]; simp; omega
  have h3 : commandLen (txSendWord proto len) = len := by
    apply BitVec.eq_of_toNat_eq; rw [commandLen, field_toNat, txSendWord_toNat]; omega
  have h4 : commandProto (txSendWord proto len) = proto := by
    apply BitVec.eq_of_toNat_eq; rw [commandProto, field_toNat, txSendWord_toNat]; omega
  simp [decodeCommand, h1, h2, h3, h4]

/-- The TX_BUILD word decodes to TX_BUILD with its operands (R113). -/
@[simp] theorem decodeCommand_txBuildWord (mf : Bool) (proto : Byte) (len : Half) :
    decodeCommand (txBuildWord mf proto len) = .ok (.txBuild mf proto len) := by
  have h := len.isLt
  have h' := proto.isLt
  have hm := mf.toNat_le
  have h1 : commandOp (txBuildWord mf proto len) = 3 := by
    apply BitVec.eq_of_toNat_eq; rw [commandOp, field_toNat, txBuildWord_toNat]; simp; omega
  have h2 : (txBuildWord mf proto len).extractLsb' 25 3 = 0 := by
    apply BitVec.eq_of_toNat_eq; rw [field_toNat, txBuildWord_toNat]; simp; omega
  have h3 : commandLen (txBuildWord mf proto len) = len := by
    apply BitVec.eq_of_toNat_eq; rw [commandLen, field_toNat, txBuildWord_toNat]; omega
  have h4 : commandProto (txBuildWord mf proto len) = proto := by
    apply BitVec.eq_of_toNat_eq; rw [commandProto, field_toNat, txBuildWord_toNat]; omega
  have h5 : commandMf (txBuildWord mf proto len) = mf := by
    rw [commandMf, bit_eq, txBuildWord_toNat]; cases mf <;> simp <;> omega
  simp [decodeCommand, h1, h2, h3, h4, h5]

/-- Everything the command decoder answers (R110 to R114): a command of the three whose word it is, or an error. -/
theorem decodeCommand_eq_ok {w : Word} {i : Instr} (h : decodeCommand w = .ok i) :
    (∃ len, i = .rxFrame len ∧ w = rxFrameWord len) ∨ (∃ proto len, i = .txSend proto len ∧ w = txSendWord proto len)
      ∨ (∃ mf proto len, i = .txBuild mf proto len ∧ w = txBuildWord mf proto len) := by
  have hw := w.isLt
  have key : ∀ {n : Nat} (lo : Nat) (k : BitVec n), w.extractLsb' lo n = k → w.toNat / 2 ^ lo % 2 ^ n = k.toNat := by
    intro n lo k hk; rw [← hk, field_toNat]
  unfold decodeCommand commandOp at h
  split at h
  · next h1 =>
    split at h
    · next h2 =>
      refine .inl ⟨commandLen w, by simpa using h.symm, ?_⟩
      have h1 := key _ _ h1
      have h2 := key _ _ h2
      apply BitVec.eq_of_toNat_eq
      rw [rxFrameWord_toNat, commandLen, field_toNat]
      simp at h1 h2; omega
    · simp at h
  · split at h
    · next h1 =>
      split at h
      · next h2 =>
        refine .inr (.inl ⟨commandProto w, commandLen w, by simpa using h.symm, ?_⟩)
        have h1 := key _ _ h1
        have h2 := key _ _ h2
        apply BitVec.eq_of_toNat_eq
        rw [txSendWord_toNat, commandLen, commandProto, field_toNat, field_toNat]
        simp at h1 h2; omega
      · simp at h
    · split at h
      · next h1 =>
        split at h
        · next h2 =>
          refine .inr (.inr ⟨commandMf w, commandProto w, commandLen w, by simpa using h.symm, ?_⟩)
          have h1 := key _ _ h1
          have h2 := key _ _ h2
          apply BitVec.eq_of_toNat_eq
          have h3 : (commandMf w).toNat = w.toNat / 16777216 % 2 := by
            rw [commandMf, bit_eq]
            have h4 : w.toNat / 16777216 % 2 = 0 ∨ w.toNat / 16777216 % 2 = 1 := by omega
            rcases h4 with h4 | h4 <;> simp [h4]
          rw [txBuildWord_toNat, commandLen, commandProto, field_toNat, field_toNat, h3]
          simp at h1 h2; omega
        · simp at h
      · simp at h

/-- Masking in parts. -/
theorem append_and_append {m n : Nat} (x u : BitVec m) (y v : BitVec n) : (x ++ y) &&& (u ++ v) = (x &&& u) ++ (y &&& v) := by
  ext i hi
  simp only [BitVec.getElem_and, BitVec.getElem_append]
  split <;> rfl

/-- A mask of the bits from 16, 24 or 25 on clears the bits below. -/
theorem mask16_toNat (w : Word) : (w &&& 0xFFFF0000).toNat = w.toNat / 2 ^ 16 * 2 ^ 16 := by
  have hm : (0xFFFF0000 : Word) = BitVec.allOnes 16 ++ (0 : BitVec 16) := by decide
  have hw : w = w.extractLsb' 16 16 ++ w.extractLsb' 0 16 := by
    have := w.isLt
    apply BitVec.eq_of_toNat_eq; rw [append_toNat, field_toNat, field_toNat]; omega
  conv_lhs => rw [hw, hm, append_and_append, append_toNat, BitVec.and_allOnes, field_toNat]
  have := w.isLt
  simp; omega

theorem mask24_toNat (w : Word) : (w &&& 0xFF000000).toNat = w.toNat / 2 ^ 24 * 2 ^ 24 := by
  have hm : (0xFF000000 : Word) = BitVec.allOnes 8 ++ (0 : BitVec 24) := by decide
  have hw : w = w.extractLsb' 24 8 ++ w.extractLsb' 0 24 := by
    have := w.isLt
    apply BitVec.eq_of_toNat_eq; rw [append_toNat, field_toNat, field_toNat]; omega
  conv_lhs => rw [hw, hm, append_and_append, append_toNat, BitVec.and_allOnes, field_toNat]
  have := w.isLt
  simp; omega

theorem mask25_toNat (w : Word) : (w &&& 0xFE000000).toNat = w.toNat / 2 ^ 25 * 2 ^ 25 := by
  have hm : (0xFE000000 : Word) = BitVec.allOnes 7 ++ (0 : BitVec 25) := by decide
  have hw : w = w.extractLsb' 25 7 ++ w.extractLsb' 0 25 := by
    have := w.isLt
    apply BitVec.eq_of_toNat_eq; rw [append_toNat, field_toNat, field_toNat]; omega
  conv_lhs => rw [hw, hm, append_and_append, append_toNat, BitVec.and_allOnes, field_toNat]
  have := w.isLt
  simp; omega

/-- The match and mask test of the opcode table, as arithmetic. -/
theorem isCommandWord_iff (w : Word) : isCommandWord w = true ↔
    w.toNat / 2 ^ 16 = 0x1000 ∨ w.toNat / 2 ^ 24 = 0x20 ∨ w.toNat / 2 ^ 25 = 0x18 := by
  simp only [isCommandWord, Bool.or_eq_true, beq_iff_eq, ← BitVec.toNat_inj, mask16_toNat, mask24_toNat, mask25_toNat, or_assoc]
  simp; omega

/-- The match and mask test accepts exactly the words the decoder accepts (R114). -/
theorem isCommandWord_iff_decodes (w : Word) : isCommandWord w = true ↔ ∃ i, decodeCommand w = .ok i := by
  rw [isCommandWord_iff]
  constructor
  · intro h
    have hw := w.isLt
    have op : ∀ k : BitVec 4, w.toNat / 2 ^ 28 = k.toNat → commandOp w = k := by
      intro k hk; apply BitVec.eq_of_toNat_eq; rw [commandOp, field_toNat]; omega
    rcases h with h | h | h
    · have h1 := op 1 (by simp; omega)
      have h2 : w.extractLsb' 16 12 = 0 := by apply BitVec.eq_of_toNat_eq; rw [field_toNat]; simp; omega
      exact ⟨_, by simp [decodeCommand, h1, h2]; rfl⟩
    · have h1 := op 2 (by simp; omega)
      have h2 : w.extractLsb' 24 4 = 0 := by apply BitVec.eq_of_toNat_eq; rw [field_toNat]; simp; omega
      exact ⟨_, by simp [decodeCommand, h1, h2]; rfl⟩
    · have h1 := op 3 (by simp; omega)
      have h2 : w.extractLsb' 25 3 = 0 := by apply BitVec.eq_of_toNat_eq; rw [field_toNat]; simp; omega
      exact ⟨_, by simp [decodeCommand, h1, h2]; rfl⟩
  · rintro ⟨i, h⟩
    rcases decodeCommand_eq_ok h with ⟨len, -, rfl⟩ | ⟨proto, len, -, rfl⟩ | ⟨mf, proto, len, -, rfl⟩
    · have := len.isLt
      rw [rxFrameWord_toNat]; omega
    · have := len.isLt
      have := proto.isLt
      rw [txSendWord_toNat]; omega
    · have := len.isLt
      have := proto.isLt
      have := mf.toNat_le
      rw [txBuildWord_toNat]; omega

/-- A request is the encoding of its fields (R115). -/
theorem encodeRequest_fields (request : BitVec 25) :
    encodeRequest (requestWe request) (requestStrb request) (requestAddr request) = request := by
  have hr := request.isLt
  apply BitVec.eq_of_toNat_eq
  rw [encodeRequest_toNat, requestStrb, requestAddr, field_toNat, field_toNat, requestWe, bit_eq]
  have h : request.toNat / 2 ^ 24 % 2 = 0 ∨ request.toNat / 2 ^ 24 % 2 = 1 := by omega
  rcases h with h | h <;> rw [h] <;> simp <;> omega

/-- The write of a word that is no command, or to another address, or with a partial strobe, stays a CFG_WRITE. -/
theorem decodeWrite_eq (strb : BitVec 4) (addr : CfgAddr) (wdata : Word) :
    decodeWrite strb addr wdata = .cfgWrite strb addr wdata
      ∨ (strb = 0xF ∧ addr = cmdAddr ∧ decodeCommand wdata = .ok (decodeWrite strb addr wdata)) := by
  unfold decodeWrite
  split
  · next h =>
    cases hd : decodeCommand wdata with
    | ok c => exact .inr ⟨h.1, h.2, rfl⟩
    | error e => exact .inl rfl
  · exact .inl rfl

end Sys2Proof
end

