-- ==== Sys2Proof/Laws/Words.lean ====
section
/-! SUPPORT. Byte sequences and header fields: the parsed header (R106) in the arithmetic terms of Safety.lean, and fields of
sequences in parts. -/

namespace Sys2Proof.Machine

/-- A byte of the first `k` bytes. -/
theorem byteAt_take (f : List Byte) {i k : Nat} (h : i < k) : byteAt (f.take k) i = byteAt f i := by
  simp [byteAt, List.getD_eq_getElem?_getD, h]

theorem byteAt_append_left {a : List Byte} (b : List Byte) {i : Nat} (h : i < a.length) : byteAt (a ++ b) i = byteAt a i := by
  simp [byteAt, List.getD_eq_getElem?_getD, List.getElem?_append_left h]

/-- The header fields lie in the first 20 bytes (R100). -/
theorem parseHeader_take (f : List Byte) {k : Nat} (h : 20 ≤ k) : parseHeader (f.take k) = parseHeader f := by
  simp only [parseHeader, be16, addrAt]
  repeat rw [byteAt_take f (by omega)]

theorem be16_toNat (f : List Byte) (i : Nat) : (be16 f i).toNat = (byteAt f i).toNat * 256 + (byteAt f (i + 1)).toNat := by
  rw [be16, append_toNat]; norm_num

@[simp] theorem parseHeader_headerLen (f : List Byte) : (parseHeader f).headerLen = frameHeaderLen f := by
  simp [parseHeader, InboundHeader.headerLen, frameHeaderLen]

@[simp] theorem parseHeader_datagramLen (f : List Byte) : (parseHeader f).datagramLen = frameTotalLen f := by
  simp [parseHeader, InboundHeader.datagramLen, frameTotalLen, be16_toNat]

/-- VERSION is 4 exactly when the high nibble of byte 0 is (R102). -/
theorem parseHeader_version (f : List Byte) : (parseHeader f).version = 4 ↔ frameVersion f = 4 := by
  have h := (byteAt f 0).isLt
  rw [← BitVec.toNat_inj]
  simp only [parseHeader, frameVersion, field_toNat]
  constructor <;> intro h' <;> simp at h' ⊢ <;> omega

/-- The step-2 test is the four checks of R174. -/
theorem parseHeader_invalid (f : List Byte) (n : Nat) : (parseHeader f).invalid n = false ↔ frameHeaderValid f n := by
  have hv := parseHeader_version f
  have ht : (parseHeader f).tos.getLsbD 0 = false ↔ (byteAt f 1).toNat % 2 = 0 := by
    rw [show (parseHeader f).tos = byteAt f 1 from rfl, bit_eq]
    simp
  simp only [InboundHeader.invalid, Bool.or_eq_false_iff, ht, parseHeader_datagramLen, parseHeader_headerLen,
    bne_eq_false_iff_eq, hv, decide_eq_false_iff_not, Nat.not_lt, frameHeaderValid, and_assoc]

/-- Where RXBUF begins with `f`, the first `k` bytes of it read as the first `k` bytes of `f`. -/
theorem State.rxHolds_take {s : State} {f : List Byte} (h : s.rxHolds f) {k : Nat} (hk : k ≤ f.length) :
    s.rxbuf.readRange 0 k = some (f.take k) :=
  Memory.readRange_take h hk

end Sys2Proof.Machine
end

