-- ==== Sys2Proof/Laws/BuildFrame.lean ====
section
/-! SUPPORT. The arithmetic of headers: the plain sum as the recursive word sum, the folded sum, a byte replaced, and the fields
of a built header. -/

namespace Sys2Proof.Machine

/-- The two ways of writing the plain sum (R150, R151). -/
theorem plainSum_eq_wordSum (b : List Byte) : plainSum b = wordSum b := by
  match b with
  | [] => simp [plainSum]
  | [x] => simp [plainSum, wordSum, byteAt]
  | x :: y :: rest =>
    rw [wordSum_cons_cons, ← plainSum_eq_wordSum rest, plainSum, plainSum]
    have : ((x :: y :: rest).length + 1) / 2 = (rest.length + 1) / 2 + 1 := by simp; omega
    rw [this, Finset.sum_range_succ']
    have h2 : ∀ i, byteAt (x :: y :: rest) (2 * (i + 1)) = byteAt rest (2 * i) := fun i => by
      rw [show 2 * (i + 1) = (2 * i + 1) + 1 by omega]; rfl
    have h3 : ∀ i, byteAt (x :: y :: rest) (2 * (i + 1) + 1) = byteAt rest (2 * i + 1) := fun i => by
      rw [show 2 * (i + 1) + 1 = ((2 * i + 1) + 1) + 1 by omega]; rfl
    simp only [h2, h3]
    simp [byteAt]; omega

/-- The carry loop computes `fold` (R151). -/
theorem endAroundCarry_eq_foldSum (s : Nat) : endAroundCarry s s = foldSum s := by
  have h1 := endAroundCarry_le s s (Nat.le_refl _)
  have h2 := endAroundCarry_mod s s
  have h3 := endAroundCarry_pos s s
  unfold foldSum
  split
  · next h => subst h; simp
  · next h => have := h3 (by omega); omega

theorem foldSum_le (s : Nat) : foldSum s ≤ 0xFFFF := by unfold foldSum; split <;> omega

theorem foldSum_mod (s : Nat) : foldSum s % 65535 = s % 65535 := by unfold foldSum; split <;> omega

/-- A byte replaced: the word sum moves by the byte's weight. -/
theorem wordSum_set (b : List Byte) (i : Nat) (v : Byte) (h : i < b.length) :
    wordSum (b.set i v) + (if i % 2 = 0 then 256 else 1) * (byteAt b i).toNat
      = wordSum b + (if i % 2 = 0 then 256 else 1) * v.toNat := by
  match b, i with
  | [], _ => simp at h
  | [x], 0 => simp [wordSum, byteAt]; omega
  | [x], i + 1 => simp at h
  | x :: y :: rest, 0 => simp [wordSum, byteAt]; omega
  | x :: y :: rest, 1 => simp [wordSum, byteAt]; omega
  | x :: y :: rest, i + 2 =>
    have := wordSum_set rest i v (by simpa using h)
    have hb : byteAt (x :: y :: rest) (i + 2) = byteAt rest i := rfl
    simp only [List.set_cons_succ, wordSum_cons_cons, hb, Nat.add_mod_right]
    omega

theorem byteAt_set_ne (b : List Byte) {i j : Nat} (v : Byte) (h : i ≠ j) : byteAt (b.set i v) j = byteAt b j := by
  simp [byteAt, List.getD_eq_getElem?_getD, h]

theorem byteAt_set_eq (b : List Byte) {i : Nat} (v : Byte) (h : i < b.length) : byteAt (b.set i v) i = v := by
  simp [byteAt, List.getD_eq_getElem?_getD, h]

/-- The two halves of a 16-bit field in network order (R71). -/
theorem toBe16_join (c : Half) : c.extractLsb' 8 8 ++ c.extractLsb' 0 8 = c := by
  have := c.isLt
  apply BitVec.eq_of_toNat_eq
  rw [append_toNat, field_toNat, field_toNat]; omega

/-- FLAGS_FRAG as a number (R104). -/
theorem flagsFragWord_toNat (mf : Bool) (off : BitVec 13) :
    (flagsFragWord mf off).toNat = (if mf then 8192 else 0) + off.toNat := by
  have h := off.isLt
  cases mf
  · simp [flagsFragWord]; omega
  · have : flagsFragWord true off = (1 : BitVec 3) ++ off := by
      apply BitVec.eq_of_toNat_eq
      rw [append_toNat]
      simp only [flagsFragWord, BitVec.toNat_or]
      have hh : (((BitVec.ofBool true).setWidth 16 <<< 13 : BitVec 16)).toNat = 2 ^ 13 * 1 := by decide
      rw [hh, BitVec.toNat_setWidth, Nat.mod_eq_of_lt (by omega), ← Nat.two_pow_add_eq_or_of_lt h]; simp
    rw [this, append_toNat]; simp

/-- The checksum field does not enter the header checksum of a built header (R152, R154). -/
theorem hdrCksum_outHeader (p : Params) (src dst : IpAddr) (proto : Byte) (ident : Half) (mf : Bool) (off : BitVec 13) (n : Nat)
    (c : Half) : hdrCksum (outHeader p src dst proto ident mf off n c) 20
      = cksum16 (outHeader p src dst proto ident mf off n 0) := by
  simp [hdrCksum, outHeader, toBe16, IpAddr.toList]

/-- HDR_CKSUM over a 20-byte header does not read the payload. -/
theorem hdrCksum_append (h r : List Byte) (hl : h.length = 20) : hdrCksum (h ++ r) 20 = hdrCksum h 20 := by
  unfold hdrCksum
  rw [List.take_append_of_le_length (by omega), List.take_append_of_le_length (by omega)]

/-- What BUILD_FRAME emits: one TX_OUT record whose next hop is the frame's destination, with the frame of R107 and R211. -/
theorem buildFrame_spec (p : Params) (hostIp : Word) (payload : List Byte) (dst : Word) (proto : Byte) (ident : Half) (mf : Bool)
    (off : BitVec 13) (hn : payload.length ≤ 65515) :
    ∃ frame, buildFrame p hostIp payload (ipBytes dst) proto ident mf off = .tx (addrAt frame 16) frame
      ∧ frameIs p frame hostIp dst proto ident mf off.toNat payload := by
  refine ⟨builtHeader p (ipBytes hostIp) (ipBytes dst) proto ident mf off payload.length ++ payload, rfl, ?_⟩
  set H := builtHeader p (ipBytes hostIp) (ipBytes dst) proto ident mf off payload.length with hH
  have hlen : H.length = 20 := rfl
  refine ⟨by simp [hlen], by rw [List.drop_left' hlen], rfl, rfl, ?_, ?_, off.isLt, ?_, rfl, rfl, ?_, ?_, ?_⟩
  · show ((BitVec.ofNat 16 (20 + payload.length)).extractLsb' 8 8).toNat * 256
      + ((BitVec.ofNat 16 (20 + payload.length)).extractLsb' 0 8).toNat = _
    rw [field_toNat, field_toNat, BitVec.toNat_ofNat, Nat.mod_eq_of_lt (show 20 + payload.length < 2 ^ 16 by omega)]; omega
  · exact toBe16_join ident
  · have : be16 (H ++ payload) 6 = flagsFragWord mf off := toBe16_join _
    rw [this, flagsFragWord_toNat]
  · rw [hdrCksum_append _ _ hlen, hH, builtHeader, hdrCksum_outHeader]
    exact (toBe16_join _).symm
  · have := hostIp.isLt
    show ((hostIp.extractLsb' 24 8).toNat * 2 ^ 24 + (hostIp.extractLsb' 16 8).toNat * 2 ^ 16
      + (hostIp.extractLsb' 8 8).toNat * 2 ^ 8 + (hostIp.extractLsb' 0 8).toNat) = _
    simp only [field_toNat]; omega
  · have := dst.isLt
    show ((dst.extractLsb' 24 8).toNat * 2 ^ 24 + (dst.extractLsb' 16 8).toNat * 2 ^ 16
      + (dst.extractLsb' 8 8).toNat * 2 ^ 8 + (dst.extractLsb' 0 8).toNat) = _
    simp only [field_toNat]; omega

end Sys2Proof.Machine
end

