-- ==== Sys2Proof/Laws/Receive.lean ====
section
/-! SUPPORT. Everything RX_FRAME can do, step by step in the order of R170 and R305: one inversion lemma per step. -/

namespace Sys2Proof.Machine

variable {p : Params} {s t : State} {h : InboundHeader} {n : Nat}

/-- Step 6 emits nothing for a supported protocol. -/
theorem rxNotify_supported {d : List Byte} (hs : supportedProto p h.proto = true) : rxNotify p h d s = s := by
  simp [rxNotify, hs]

/-- Step 6 emits one ICMP_OUT record for an unsupported protocol (R182). -/
theorem rxNotify_unsupported {d : List Byte} (hs : supportedProto p h.proto = false) :
    rxNotify p h d s = s.emit (.icmp h.src p.icmpCodeProtoUnreach d) := by
  simp [rxNotify, hs]

/-- Step 6 changes the trace alone, and only by appending. -/
theorem rxNotify_eq (p : Params) (h : InboundHeader) (d : List Byte) (s : State) :
    rxNotify p h d s = { s with trace := s.trace ++ (if supportedProto p h.proto then []
      else [.icmp h.src p.icmpCodeProtoUnreach d]) } := by
  unfold rxNotify
  split <;> simp [State.emit]

/-- Steps 5 to 7: a strip underflow or a dispatch. -/
theorem rxDeliver_cases (e : rxDeliver p h s = .next t) :
    ∃ d, s.rxbuf.readRange 0 h.datagramLen = some d ∧
      ((h.datagramLen < h.headerLen ∧ t = (rxNotify p h d s).raiseFault .stripUnderflow)
        ∨ (h.headerLen ≤ h.datagramLen
          ∧ t = ((rxNotify p h d s).emit (.disp h.proto h.src (d.drop h.headerLen))).finish (rxDoneCode p h) 0)) := by
  obtain ⟨d, hd, e⟩ := withBytes_eq_next_iff.1 e
  refine ⟨d, hd, ?_⟩
  split at e
  · next hlt => exact .inl ⟨hlt, by simpa using e.symm⟩
  · next hlt => exact .inr ⟨Nat.le_of_not_lt hlt, by simpa using e.symm⟩

/-- Step 4: a destination drop, or on to delivery. -/
theorem rxDestination_cases (e : rxDestination p h s = .next t) :
    (h.dst ≠ ipBytes s.hostIp ∧ t = s.finish .rxDropDest 0) ∨ (h.dst = ipBytes s.hostIp ∧ rxDeliver p h s = .next t) := by
  unfold rxDestination at e
  split at e
  · next hd => exact .inr ⟨hd, e⟩
  · next hd => exact .inl ⟨hd, by simpa using e.symm⟩

/-- Step 3: a checksum drop, or on to the destination check. -/
theorem rxChecksum_cases (e : rxChecksum p h s = .next t) :
    ∃ f, s.rxbuf.readRange 0 h.headerLen = some f ∧
      ((hdrCksum f h.headerLen ≠ h.checksum ∧ t = s.finish .rxDropChecksum 0)
        ∨ (hdrCksum f h.headerLen = h.checksum ∧ rxDestination p h s = .next t)) := by
  obtain ⟨f, hf, e⟩ := withBytes_eq_next_iff.1 e
  refine ⟨f, hf, ?_⟩
  split at e
  · next hc => exact .inr ⟨hc, e⟩
  · next hc => exact .inl ⟨hc, by simpa using e.symm⟩

/-- Step 2: a header drop, a header overrun, or on to the checksum. -/
theorem rxHeader_cases (e : rxHeader p n s = .next t) :
    ∃ f, s.rxbuf.readRange 0 20 = some f ∧
      (((parseHeader f).invalid n = true ∧ t = s.finish .rxDropHeader 0)
        ∨ ((parseHeader f).invalid n = false ∧ n < (parseHeader f).headerLen ∧ t = s.raiseFault .hdrOverrun)
        ∨ ((parseHeader f).invalid n = false ∧ (parseHeader f).headerLen ≤ n ∧ rxChecksum p (parseHeader f) s = .next t)) := by
  obtain ⟨f, hf, e⟩ := withBytes_eq_next_iff.1 e
  refine ⟨f, hf, ?_⟩
  split at e
  · next hi => exact .inl ⟨hi, by simpa using e.symm⟩
  · next hi =>
    split at e
    · next hn => exact .inr (.inl ⟨by simpa using hi, hn, by simpa using e.symm⟩)
    · next hn => exact .inr (.inr ⟨by simpa using hi, Nat.le_of_not_lt hn, e⟩)

/-- RX_FRAME: refused before registration, a short drop, or on to the header. -/
theorem rxFrame_cases (e : rxFrame p n s = .next t) :
    (s.ctrlReg = false ∧ t = s.reject)
      ∨ (s.ctrlReg = true ∧ n < 20 ∧ t = s.finish .rxDropShort 0)
      ∨ (s.ctrlReg = true ∧ 20 ≤ n ∧ rxHeader p n s = .next t) := by
  unfold rxFrame at e
  split at e
  · next hr =>
    split at e
    · next hn => exact .inr (.inl ⟨hr, hn, by simpa using e.symm⟩)
    · next hn => exact .inr (.inr ⟨hr, Nat.le_of_not_lt hn, e⟩)
  · next hr => exact .inl ⟨by simpa using hr, by simpa using e.symm⟩

/-- Steps 5 to 7 fault exactly where a byte of the declared datagram is unwritten (R191). -/
theorem rxDeliver_eq_fault_iff :
    rxDeliver p h s = .fault .undefRead ↔ ∃ a < h.datagramLen, s.rxbuf.read a = none := by
  rw [rxDeliver, withBytes_eq_fault_iff (by intro d; split <;> simp)]

/-- Step 3 faults exactly where a byte of the header is unwritten, or where the steps after it do (R191). -/
theorem rxChecksum_eq_fault_iff :
    rxChecksum p h s = .fault .undefRead ↔ (∃ a < h.headerLen, s.rxbuf.read a = none)
      ∨ ∃ f, s.rxbuf.readRange 0 h.headerLen = some f ∧ hdrCksum f h.headerLen = h.checksum ∧ h.dst = ipBytes s.hostIp
        ∧ ∃ a < h.datagramLen, s.rxbuf.read a = none := by
  cases hr : s.rxbuf.readRange 0 h.headerLen with
  | none =>
    have := (Memory.readRange_zero_eq_none_iff).1 hr
    simp [rxChecksum, withBytes_of_none hr, this]
  | some f =>
    have hn : ¬ ∃ a < h.headerLen, s.rxbuf.read a = none := by
      rw [← Memory.readRange_zero_eq_none_iff, hr]; simp
    simp only [rxChecksum, withBytes_of_some hr, hn, false_or, rxDestination, ← rxDeliver_eq_fault_iff (p := p)]
    by_cases hc : hdrCksum f h.headerLen = h.checksum <;> by_cases hd : h.dst = ipBytes s.hostIp <;> simp [hc, hd]

/-- RX_FRAME as one disjunction: rejected, one of the four silent drops, a header overrun, or steps 5 to 7 with the parsed header
and the datagram's bytes. -/
theorem rxFrame_outcomes (e : rxFrame p n s = .next t) :
    (s.ctrlReg = false ∧ t = s.reject)
      ∨ (s.ctrlReg = true ∧
        ((∃ c ∈ [ResultCode.rxDropShort, .rxDropHeader, .rxDropChecksum, .rxDropDest], t = s.finish c 0)
          ∨ t = s.raiseFault .hdrOverrun
          ∨ ∃ f d, s.rxbuf.readRange 0 20 = some f ∧ s.rxbuf.readRange 0 (parseHeader f).datagramLen = some d
            ∧ (parseHeader f).invalid n = false
            ∧ (((parseHeader f).datagramLen < (parseHeader f).headerLen
                ∧ t = (rxNotify p (parseHeader f) d s).raiseFault .stripUnderflow)
              ∨ ((parseHeader f).headerLen ≤ (parseHeader f).datagramLen
                ∧ t = ((rxNotify p (parseHeader f) d s).emit
                  (.disp (parseHeader f).proto (parseHeader f).src (d.drop (parseHeader f).headerLen))).finish
                  (rxDoneCode p (parseHeader f)) 0)))) := by
  rcases rxFrame_cases e with h | ⟨h, _, rfl⟩ | ⟨h, _, e⟩
  · exact .inl h
  · exact .inr ⟨h, .inl ⟨_, by simp, rfl⟩⟩
  · obtain ⟨f, hf, ⟨_, rfl⟩ | ⟨_, _, rfl⟩ | ⟨hv, _, e⟩⟩ := rxHeader_cases e
    · exact .inr ⟨h, .inl ⟨_, by simp, rfl⟩⟩
    · exact .inr ⟨h, .inr (.inl rfl)⟩
    · obtain ⟨_, _, ⟨_, rfl⟩ | ⟨_, e⟩⟩ := rxChecksum_cases e
      · exact .inr ⟨h, .inl ⟨_, by simp, rfl⟩⟩
      · rcases rxDestination_cases e with ⟨_, rfl⟩ | ⟨_, e⟩
        · exact .inr ⟨h, .inl ⟨_, by simp, rfl⟩⟩
        · obtain ⟨d, hd, h'⟩ := rxDeliver_cases e
          exact .inr ⟨h, .inr (.inr ⟨f, d, hf, hd, hv, h'⟩)⟩

end Sys2Proof.Machine
end

