-- ==== Sys2Proof/Laws/HostAccess.lean ====
section
/-! SUPPORT. Everything a CFG transaction, a command write and a step can do: one inversion lemma per shared operation. -/

namespace Sys2Proof.Machine

variable {p : Params} {s t : State}

/-- The register at the address of a register (R32). -/
@[simp] theorem regAt_regAddr (r : Reg) : regAt (regAddr r) = some r := by cases r <;> decide

/-- Only a register's own address reaches it. -/
theorem regAt_eq_some {addr : CfgAddr} {r : Reg} (h : regAt addr = some r) : addr = regAddr r := by
  have h' := List.find?_some (p := fun r => regAddr r == addr) h
  exact (eq_of_beq h').symm

/-- A register's address is in the register block, not in a window (R32, R81). -/
@[simp] theorem targetOf_regAddr (r : Reg) : targetOf (regAddr r) = .register r := by cases r <;> decide

/-- A misaligned address (R78). -/
theorem targetOf_misaligned {addr : CfgAddr} (h : addr.toNat % 4 ≠ 0) : targetOf addr = .misaligned := by
  simp [targetOf, h]

/-- An aligned address of the RXBUF window (R77, R81). -/
theorem targetOf_rx {addr : CfgAddr} (ha : addr.toNat % 4 = 0) (h1 : 0x10000 ≤ addr.toNat) (h2 : addr.toNat ≤ 0x1FFFF) :
    targetOf addr = .rxWindow (addr.toNat - 0x10000) := by
  have h3 : addr.toNat ≤ 0x1FFFC := by omega
  simp [targetOf, ha, h1, h3]

/-- An aligned address of the TXBUF window (R77, R81). -/
theorem targetOf_tx {addr : CfgAddr} (ha : addr.toNat % 4 = 0) (h1 : 0x20000 ≤ addr.toNat) (h2 : addr.toNat ≤ 0x2FFFF) :
    targetOf addr = .txWindow (addr.toNat - 0x20000) := by
  have h3 : addr.toNat ≤ 0x2FFFC := by omega
  have h4 : ¬ addr.toNat ≤ 0x1FFFC := by omega
  simp [targetOf, ha, h1, h3, h4]

/-- Everything the address decode answers, with the addresses that give it. -/
theorem targetOf_cases (addr : CfgAddr) :
    (addr.toNat % 4 ≠ 0 ∧ targetOf addr = .misaligned)
      ∨ (addr.toNat % 4 = 0 ∧ 0x10000 ≤ addr.toNat ∧ addr.toNat ≤ 0x1FFFC ∧ targetOf addr = .rxWindow (addr.toNat - 0x10000))
      ∨ (addr.toNat % 4 = 0 ∧ 0x20000 ≤ addr.toNat ∧ addr.toNat ≤ 0x2FFFC ∧ targetOf addr = .txWindow (addr.toNat - 0x20000))
      ∨ (∃ r, addr = regAddr r ∧ targetOf addr = .register r)
      ∨ (addr.toNat % 4 = 0 ∧ regAt addr = none ∧ targetOf addr = .unmapped) := by
  by_cases ha : addr.toNat % 4 = 0
  · by_cases h1 : 0x10000 ≤ addr.toNat ∧ addr.toNat ≤ 0x1FFFC
    · exact .inr (.inl ⟨ha, h1.1, h1.2, targetOf_rx ha h1.1 (by omega)⟩)
    · by_cases h2 : 0x20000 ≤ addr.toNat ∧ addr.toNat ≤ 0x2FFFC
      · exact .inr (.inr (.inl ⟨ha, h2.1, h2.2, targetOf_tx ha h2.1 (by omega)⟩))
      · cases hr : regAt addr with
        | none => exact .inr (.inr (.inr (.inr ⟨ha, rfl, by simp [targetOf, ha, h1, h2, hr]⟩)))
        | some r => exact .inr (.inr (.inr (.inl ⟨r, regAt_eq_some hr, by simp [targetOf, ha, h1, h2, hr]⟩)))
  · exact .inl ⟨ha, targetOf_misaligned ha⟩

/-- A buffer word read hands over the word (R264). -/
theorem readBufferWord_eq_next_iff {m : Memory} {off : Nat} :
    readBufferWord m off s = .next t ↔ ∃ w, m.readWord off = some w ∧ t = s.respond w := by
  unfold readBufferWord
  cases m.readWord off <;> simp [eq_comm]

/-- CFG_READ: an erroneous read, a buffer word, or a register (R260). -/
theorem cfgRead_cases {addr : CfgAddr} (e : cfgRead p addr s = .next t) :
    ((targetOf addr = .misaligned ∨ targetOf addr = .unmapped) ∧ t = s.busErr.respond 0)
      ∨ (∃ off w, ((targetOf addr = .rxWindow off ∧ s.rxbuf.readWord off = some w)
          ∨ (targetOf addr = .txWindow off ∧ s.txbuf.readWord off = some w)) ∧ t = s.respond w)
      ∨ (∃ r, targetOf addr = .register r ∧ t = s.respond (readReg p s r)) := by
  unfold cfgRead at e
  cases ht : targetOf addr with
  | misaligned => rw [ht] at e; exact .inl ⟨.inl rfl, by simpa using e.symm⟩
  | unmapped => rw [ht] at e; exact .inl ⟨.inr rfl, by simpa using e.symm⟩
  | rxWindow off =>
    rw [ht] at e
    obtain ⟨w, hw, rfl⟩ := readBufferWord_eq_next_iff.1 e
    exact .inr (.inl ⟨off, w, .inl ⟨rfl, hw⟩, rfl⟩)
  | txWindow off =>
    rw [ht] at e
    obtain ⟨w, hw, rfl⟩ := readBufferWord_eq_next_iff.1 e
    exact .inr (.inl ⟨off, w, .inr ⟨rfl, hw⟩, rfl⟩)
  | register r => rw [ht] at e; exact .inr (.inr ⟨r, rfl, by simpa using e.symm⟩)

/-- A command write runs one of the three commands or is rejected (R266). -/
theorem executeCommand_cases (p : Params) (w : Word) (s : State) :
    (∃ len, w = rxFrameWord len ∧ executeCommand p w s = rxFrame p len.toNat s)
      ∨ (∃ proto len, w = txSendWord proto len ∧ executeCommand p w s = txSend p proto len.toNat s)
      ∨ (∃ mf proto len, w = txBuildWord mf proto len ∧ executeCommand p w s = txBuild p mf proto len.toNat s)
      ∨ (∃ err, decodeCommand w = .error err ∧ executeCommand p w s = .next s.reject) := by
  cases hd : decodeCommand w with
  | error err => exact .inr (.inr (.inr ⟨err, rfl, by simp [executeCommand, hd]⟩))
  | ok i =>
    rcases decodeCommand_eq_ok hd with ⟨len, rfl, rfl⟩ | ⟨proto, len, rfl, rfl⟩ | ⟨mf, proto, len, rfl, rfl⟩
    · exact .inl ⟨len, rfl, by simp [executeCommand]⟩
    · exact .inr (.inl ⟨proto, len, rfl, by simp [executeCommand]⟩)
    · exact .inr (.inr (.inl ⟨mf, proto, len, rfl, by simp [executeCommand]⟩))

@[simp] theorem executeCommand_rxFrameWord (p : Params) (len : Half) (s : State) :
    executeCommand p (rxFrameWord len) s = rxFrame p len.toNat s := by simp [executeCommand]

@[simp] theorem executeCommand_txSendWord (p : Params) (proto : Byte) (len : Half) (s : State) :
    executeCommand p (txSendWord proto len) s = txSend p proto len.toNat s := by simp [executeCommand]

@[simp] theorem executeCommand_txBuildWord (p : Params) (mf : Bool) (proto : Byte) (len : Half) (s : State) :
    executeCommand p (txBuildWord mf proto len) s = txBuild p mf proto len.toNat s := by simp [executeCommand]

/-- CFG_WRITE: an erroneous write, a buffer write, a register write, or a command (R261). -/
theorem cfgWrite_cases {strb : BitVec 4} {addr : CfgAddr} {wdata : Word} (e : cfgWrite p strb addr wdata s = .next t) :
    t = s.busErr
      ∨ (∃ off, targetOf addr = .rxWindow off ∧ t = { s with rxbuf := s.rxbuf.writeStrobed off wdata strb })
      ∨ (∃ off, targetOf addr = .txWindow off ∧ t = { s with txbuf := s.txbuf.writeStrobed off wdata strb })
      ∨ (addr = regAddr .ctrl ∧ strb = 0xF ∧ t = { s with ctrlReg := s.ctrlReg || wdata.getLsbD 0 })
      ∨ (addr = regAddr .hostIp ∧ strb = 0xF ∧ t = { s with hostIp := wdata })
      ∨ (addr = regAddr .txDst ∧ strb = 0xF ∧ t = { s with txDst := wdata })
      ∨ (addr = regAddr .buildArg ∧ strb = 0xF ∧ t = { s with buildArg := BuildArg.ofWord wdata })
      ∨ (addr = regAddr .cmd ∧ strb = 0xF ∧ executeCommand p wdata s = .next t) := by
  rcases targetOf_cases addr with ⟨-, ht⟩ | ⟨-, -, -, ht⟩ | ⟨-, -, -, ht⟩ | ⟨r, rfl, ht⟩ | ⟨-, -, ht⟩ <;>
    simp only [cfgWrite, ht] at e
  · exact .inl (by simpa using e.symm)
  · exact .inr (.inl ⟨_, ht, by simpa using e.symm⟩)
  · exact .inr (.inr (.inl ⟨_, ht, by simpa using e.symm⟩))
  · split at e
    · next hs =>
      subst hs
      cases r <;> simp only [writeReg, Host.Outcome.next.injEq] at e
      case ctrl => exact .inr (.inr (.inr (.inl ⟨rfl, rfl, e.symm⟩)))
      case hostIp => exact .inr (.inr (.inr (.inr (.inl ⟨rfl, rfl, e.symm⟩))))
      case txDst => exact .inr (.inr (.inr (.inr (.inr (.inl ⟨rfl, rfl, e.symm⟩)))))
      case buildArg => exact .inr (.inr (.inr (.inr (.inr (.inr (.inl ⟨rfl, rfl, e.symm⟩))))))
      case cmd => exact .inr (.inr (.inr (.inr (.inr (.inr (.inr ⟨rfl, rfl, e⟩))))))
      all_goals exact .inl e.symm
    · exact .inl (by simpa using e.symm)
  · exact .inl (by simpa using e.symm)

/-- Everything a step can do: idle, a reset pulse, or the next transaction's instruction. -/
theorem step_cases {t : State} (e : step s = .next t) :
    (s.host = [] ∧ t = s)
      ∨ (∃ rest, s.host = .reset :: rest ∧ t = State.restart { s with host := rest })
      ∨ (∃ request wdata rest, s.host = .cfg request wdata :: rest
        ∧ exec (decodeRequest request wdata) { s with host := rest } = .next t) := by
  unfold step at e
  cases hh : s.host with
  | nil => rw [hh] at e; exact .inl ⟨rfl, by simpa using e.symm⟩
  | cons ev rest =>
    rw [hh] at e
    cases ev with
    | reset => exact .inr (.inl ⟨rest, rfl, by simpa using e.symm⟩)
    | cfg request wdata => exact .inr (.inr ⟨request, wdata, rest, rfl, e⟩)

end Sys2Proof.Machine
end

