-- ==== Sys2Proof/Laws/PerInstr.lean ====
section
/-! SUPPORT. Per instruction: the encoded form lies in the instruction's own row of spec/opcode_table.json (its match under its
mask), and a command stands in a full-word write to CMD (R110, R115). -/

namespace Sys2Proof.Laws.TableRow

/-- The encoding matches the instruction's row of the opcode table. -/
def Statement : Instr → Prop
  | i@(.cfgRead _ _) => (encode i).1 &&& 0x1000000 = 0x0000000
  | i@(.cfgWrite _ _ _) => (encode i).1 &&& 0x1000000 = 0x1000000
  | i@(.rxFrame _) => (encode i).1 = 0x1F0001C ∧ (encode i).2 &&& 0xFFFF0000 = 0x10000000
  | i@(.txSend _ _) => (encode i).1 = 0x1F0001C ∧ (encode i).2 &&& 0xFF000000 = 0x20000000
  | i@(.txBuild _ _ _) => (encode i).1 = 0x1F0001C ∧ (encode i).2 &&& 0xFE000000 = 0x30000000

/-- The request's WE bit under the mask of the CFG rows. -/
theorem request_masked (we : Bool) (strb : BitVec 4) (addr : CfgAddr) :
    encodeRequest we strb addr &&& 0x1000000 = BitVec.ofBool we ++ (0 : BitVec 4) ++ (0 : CfgAddr) := by
  have hm : (0x1000000 : BitVec 25) = (1 : BitVec 1) ++ (0 : BitVec 4) ++ (0 : BitVec 20) := by decide
  rw [hm, encodeRequest, append_and_append, append_and_append]
  cases we <;> simp

theorem cfgRead (strb : BitVec 4) (addr : CfgAddr) : Statement (.cfgRead strb addr) := by
  simp only [Statement, encode, request_masked]; decide

theorem cfgWrite (strb : BitVec 4) (addr : CfgAddr) (wdata : Word) : Statement (.cfgWrite strb addr wdata) := by
  simp only [Statement, encode, request_masked]; decide

theorem rxFrame (len : Half) : Statement (.rxFrame len) := by
  refine ⟨(by decide : cmdWriteRequest = 0x1F0001C), ?_⟩
  have hm : (0xFFFF0000 : Word) = (0xF : BitVec 4) ++ (0xFFF : BitVec 12) ++ (0 : BitVec 16) := by decide
  simp only [encode, rxFrameWord]
  rw [hm, append_and_append, append_and_append]
  simp

theorem txSend (proto : Byte) (len : Half) : Statement (.txSend proto len) := by
  refine ⟨(by decide : cmdWriteRequest = 0x1F0001C), ?_⟩
  have hm : (0xFF000000 : Word) = (0xF : BitVec 4) ++ (0xF : BitVec 4) ++ (0 : BitVec 8) ++ (0 : BitVec 16) := by decide
  simp only [encode, txSendWord]
  rw [hm, append_and_append, append_and_append, append_and_append]
  simp

theorem txBuild (mf : Bool) (proto : Byte) (len : Half) : Statement (.txBuild mf proto len) := by
  refine ⟨(by decide : cmdWriteRequest = 0x1F0001C), ?_⟩
  have hm : (0xFE000000 : Word) = (0xF : BitVec 4) ++ (0x7 : BitVec 3) ++ (0 : BitVec 1) ++ (0 : BitVec 8) ++ (0 : BitVec 16) := by
    decide
  simp only [encode, txBuildWord]
  rw [hm, append_and_append, append_and_append, append_and_append, append_and_append]
  simp

end Sys2Proof.Laws.TableRow
end

