-- ==== Sys2Proof/Laws/ReceiveFrame.lean ====
section
/-! SUPPORT. RX_FRAME on an RXBUF that begins with the bytes of a frame: how far each check takes it, in the arithmetic terms of
Safety.lean. -/

namespace Sys2Proof.Machine

variable {s : State} {f : List Byte} {n : Nat} {p : Params}

theorem be16_take (f : List Byte) {k : Nat} (i : Nat) (h : i + 1 < k) : be16 (f.take k) i = be16 f i := by
  rw [be16, byteAt_take f (by omega), byteAt_take f h, be16]

/-- HDR_CKSUM reads no byte from the span on (R152). -/
theorem hdrCksum_take (f : List Byte) {hl : Nat} (h : 20 ≤ hl) : hdrCksum (f.take hl) hl = hdrCksum f hl := by
  unfold hdrCksum
  rw [List.take_take, List.take_take]
  simp [Nat.min_eq_left (show 10 ≤ hl by omega)]

/-- The destination check compares the header's four bytes with HOST_IP as one number (R72, R179). -/
theorem parseHeader_dst (f : List Byte) (w : Word) : (parseHeader f).dst = ipBytes w ↔ addrValue f 16 = w.toNat := by
  simp only [parseHeader, addrAt, ipBytes, IpAddr.mk.injEq, ← BitVec.toNat_inj, field_toNat, addrValue]
  have := (byteAt f 16).isLt
  have := (byteAt f 17).isLt
  have := (byteAt f 18).isLt
  have := (byteAt f 19).isLt
  have := w.isLt
  simp only [Nat.reduceAdd]
  omega

/-- The two protocols of this hardware (R181). -/
theorem supportedProto_ipv4core (b : Byte) : supportedProto Config.ipv4core b = true ↔ b = 1 ∨ b = 17 := by
  simp [supportedProto, Config.ipv4core]

/-- A registered RX_FRAME of at least 20 bytes: step 2 on the bytes RXBUF begins with. -/
theorem rxFrame_to_header (hr : s.ctrlReg = true) (hn : 20 ≤ n) (hf : s.rxHolds f) (hl : 20 ≤ f.length) :
    rxFrame p n s = if (parseHeader f).invalid n then .next (s.finish .rxDropHeader 0)
      else if n < frameHeaderLen f then .next (s.raiseFault .hdrOverrun) else rxChecksum p (parseHeader f) s := by
  simp only [rxFrame, hr, if_true, Nat.not_lt.2 hn, if_false, rxHeader]
  rw [withBytes_of_some (State.rxHolds_take hf hl), parseHeader_take f (Nat.le_refl _), parseHeader_headerLen]

/-- A valid header inside the frame: step 3. -/
theorem rxFrame_to_checksum (hr : s.ctrlReg = true) (hn : 20 ≤ n) (hf : s.rxHolds f) (hv : frameHeaderValid f n)
    (hh : frameHeaderLen f ≤ n) (hl : frameHeaderLen f ≤ f.length) :
    rxFrame p n s = if hdrCksum f (frameHeaderLen f) = be16 f 10 then rxDestination p (parseHeader f) s
      else .next (s.finish .rxDropChecksum 0) := by
  have h20 : 20 ≤ frameHeaderLen f := hv.2.2.2
  rw [rxFrame_to_header hr hn hf (by omega), (parseHeader_invalid f n).2 hv]
  simp only [Bool.false_eq_true, if_false, Nat.not_lt.2 hh, rxChecksum, parseHeader_headerLen]
  rw [withBytes_of_some (State.rxHolds_take hf hl), hdrCksum_take f h20]
  rfl

/-- An accepted frame: steps 5 to 7. -/
theorem rxFrame_to_deliver (hr : s.ctrlReg = true) (hn : 20 ≤ n) (hf : s.rxHolds f) (hv : frameHeaderValid f n)
    (hh : frameHeaderLen f ≤ n) (hl : frameHeaderLen f ≤ f.length) (hc : hdrCksum f (frameHeaderLen f) = be16 f 10)
    (hd : addrValue f 16 = s.hostIp.toNat) : rxFrame p n s = rxDeliver p (parseHeader f) s := by
  rw [rxFrame_to_checksum hr hn hf hv hh hl, if_pos hc, rxDestination, if_pos ((parseHeader_dst f _).2 hd)]

end Sys2Proof.Machine
end

