-- ==== Sys2Proof/Tests/Slice0.lean ====
section
/-! SUPPORT. Tests on small states, one step each. Expected results are from 95_test_vectors.md (the vector is named) or worked by
hand from the rule named. A `witness_` theorem shows operands and a state that meet the hypotheses of the obligation it is named
after, with one part for each clause, at the boundaries of its ranges. -/

namespace Sys2Proof.Tests

open Sys2Proof Sys2Proof.Machine

/-! Helpers -/

/-- The next state, where there is one. -/
def nextOf (o : Host.Outcome State Fault Refusal) : Option State :=
  match o with
  | .next s => some s
  | .fault _ => none
  | .refused _ => none

/-- A buffer that holds `bytes` from `off` on and nothing else. -/
def bufferAt : Nat → List Byte → Memory
  | _, [] => []
  | off, b :: bytes => (off, b) :: bufferAt (off + 1) bytes

/-- The start state of the RX vectors: registered, HOST_IP 192.168.0.2, `f` in RXBUF. -/
def rxState (f : List Byte) : State :=
  { State.reset with ctrlReg := true, hostIp := 0xC0A80002, rxbuf := bufferAt 0 f }

/-- The start state of the TX vectors: HOST_IP 192.168.0.2, TX_DST 192.168.0.1, TXBUF[i] = i for i < n. -/
def txState (n : Nat) : State :=
  { State.reset with hostIp := 0xC0A80002, txDst := 0xC0A80001, txbuf := bufferAt 0 ((List.range n).map (BitVec.ofNat 8)) }

/-- RESULT, STATUS and the trace after an instruction. -/
def outcomeOf (o : Host.Outcome State Fault Refusal) : Option (Word × Word × List Record) :=
  (nextOf o).map fun t => (t.result.toWord, t.status.toWord, t.trace)

/-- The source and destination addresses of the vectors. -/
def remote : IpAddr := { b0 := 0xC0, b1 := 0xA8, b2 := 0x00, b3 := 0x01 }

/-- The frame of V-RX-01, without its padding. -/
def frame01 : List Byte :=
  [0x45, 0x00, 0x00, 0x1C, 0x00, 0x01, 0x00, 0x00, 0x40, 0x11, 0xF9, 0x7C, 0xC0, 0xA8, 0x00, 0x01, 0xC0, 0xA8, 0x00, 0x02,
    0x04, 0xD2, 0x16, 0x2E, 0x00, 0x08, 0x00, 0x00]

/-- The frame of V-RX-12: protocol 6. -/
def frame12 : List Byte :=
  [0x45, 0x00, 0x00, 0x1C, 0x00, 0x01, 0x00, 0x00, 0x40, 0x06, 0xF9, 0x87, 0xC0, 0xA8, 0x00, 0x01, 0xC0, 0xA8, 0x00, 0x02,
    0x04, 0xD2, 0x16, 0x2E, 0x00, 0x08, 0x00, 0x00]

/-- The first 20 bytes of V-RX-14: IHL 15. -/
def frame14 : List Byte :=
  [0x4F, 0x00, 0x00, 0x1C, 0x00, 0x01, 0x00, 0x00, 0x40, 0x11, 0xEF, 0x7C, 0xC0, 0xA8, 0x00, 0x01, 0xC0, 0xA8, 0x00, 0x02]

/-- The frame of V-RX-15: IHL 7, total length 24. -/
def frame15 : List Byte :=
  [0x47, 0x00, 0x00, 0x18, 0x00, 0x01, 0x00, 0x00, 0x40, 0x11, 0xF7, 0x80, 0xC0, 0xA8, 0x00, 0x01, 0xC0, 0xA8, 0x00, 0x02,
    0x00, 0x00, 0x00, 0x00, 0x00, 0x00, 0x00, 0x00]

/-- The frame of V-RX-16: as V-RX-15, protocol 6. -/
def frame16 : List Byte :=
  [0x47, 0x00, 0x00, 0x18, 0x00, 0x01, 0x00, 0x00, 0x40, 0x06, 0xF7, 0x8B, 0xC0, 0xA8, 0x00, 0x01, 0xC0, 0xA8, 0x00, 0x02,
    0x00, 0x00, 0x00, 0x00, 0x00, 0x00, 0x00, 0x00]

/-- The header of R156. -/
def headerZero : List Byte :=
  [0x45, 0x00, 0x00, 0x14, 0xF9, 0x85, 0x00, 0x00, 0x40, 0x11, 0x00, 0x00, 0xC0, 0xA8, 0x00, 0x01, 0xC0, 0xA8, 0x00, 0x02]

/-! Decoding: words written out from R111 to R115 -/

/-- CFG_READ, R115: 0 xxxx A*20. -/
theorem test_decode_cfgRead :
    decodeRequest 0b0_0000_00000000000000001100 0 = .cfgRead 0 0x0C
      ∧ decodeRequest 0b0_1010_00011111111111111100 0 = .cfgRead 0xA 0x1FFFC := by decide

/-- CFG_WRITE, R115: 1 SSSS A*20, CFG-12 and CFG-16. -/
theorem test_decode_cfgWrite :
    decodeRequest 0b1_0011_00010000000000000000 0x1C000045 = .cfgWrite 0x3 0x10000 0x1C000045
      ∧ decodeRequest 0x170001C 0x10000014 = .cfgWrite 0x7 0x1C 0x10000014 := by decide

/-- RX_FRAME, R111: 0001 000000000000 L*16; P-1's `RX 32`. -/
theorem test_decode_rxFrame :
    decodeCommand 0b0001_000000000000_0000000000100000 = .ok (.rxFrame 32)
      ∧ decodeRequest 0x1F0001C 0x1000FFFF = .rxFrame 0xFFFF := by decide

/-- TX_SEND, R112: 0010 0000 P*8 L*16; V-SND-06. -/
theorem test_decode_txSend :
    decodeCommand 0b0010_0000_00010001_0000101110111000 = .ok (.txSend 17 3000)
      ∧ decodeRequest 0x1F0001C 0x20FF0001 = .txSend 0xFF 1 := by decide

/-- TX_BUILD, R113: 0011 000 M P*8 L*16; V-BLD-02 and V-BLD-06. -/
theorem test_decode_txBuild :
    decodeCommand 0b0011_000_1_00010001_0000000000001000 = .ok (.txBuild true 17 8)
      ∧ decodeRequest 0x1F0001C 0x30060008 = .txBuild false 6 8 := by decide

/-- CMD-01 to CMD-07: the illegal command words of R114. -/
theorem test_decode_illegal :
    [0x00000000, 0x10010014, 0x18000014, 0x24110000, 0x32110000, 0x40000000, 0xF0000000].map decodeCommand
      = [.error (.reservedOp 0), .error (.reservedBits 1), .error (.reservedBits 1), .error (.reservedBits 2),
        .error (.reservedBits 3), .error (.reservedOp 4), .error (.reservedOp 0xF)] := by decide

/-- The illegal words by their table numbering, and the request rows with bits above 25 clear. -/
theorem test_decode_tableWord :
    decodeTableWord 32 0x10010014 = none ∧ decodeTableWord 32 0xF0000000 = none
      ∧ decodeTableWord 25 0x1F00004 = some (.cfgWrite 0xF 0x04 0) ∧ decodeTableWord 32 0 = some (.cfgRead 0 0) := by decide

/-- The packed requests of R130 and P-1. -/
theorem test_encode_words :
    encode (.cfgRead 0 0x10000) = (0x0010000, 0) ∧ encode (.cfgWrite 0x3 0x10 5) = (0x1300010, 5)
      ∧ encode (.rxFrame 32) = (0x1F0001C, 0x10000020) ∧ encode (.txSend 17 20) = (0x1F0001C, 0x20110014)
      ∧ encode (.txBuild true 17 8) = (0x1F0001C, 0x31110008) := by decide

/-! Well-formedness: the one check, with the terms it refuses and its neighbours -/

/-- A full-word write of a legal command word to CMD is the command, not a CFG_WRITE (R116, R266). -/
theorem test_illFormed_refused :
    (Instr.cfgWrite 0xF 0x1C 0x10000014).wellFormed = false ∧ (Instr.cfgWrite 0xF 0x1C 0x20110BB8).wellFormed = false
      ∧ (Instr.cfgWrite 0xF 0x1C 0x31110008).wellFormed = false := by decide

/-- A partial strobe, another address or an illegal word is a CFG_WRITE. -/
theorem test_wellFormed_neighbours :
    (Instr.cfgWrite 0x7 0x1C 0x10000014).wellFormed = true ∧ (Instr.cfgWrite 0xF 0x18 0x10000014).wellFormed = true
      ∧ (Instr.cfgWrite 0xF 0x1C 0x10010014).wellFormed = true := by decide

/-! CFG_READ and CFG_WRITE -/

/-- CFG-01, CFG-04: ID, and a misaligned read. -/
theorem test_cfgRead_registers :
    ((nextOf (exec (.cfgRead 0 0x00) State.reset)).map fun t => (t.responses, t.status.toWord)) = some ([0x49503401], 0)
      ∧ ((nextOf (exec (.cfgRead 0 0x02) State.reset)).map fun t => (t.responses, t.status.toWord)) = some ([0], 8) := by decide

/-- CFG-12, CFG-13: the last read of P-1, and the read of a word with two unwritten bytes. -/
theorem test_cfgRead_buffer :
    ((nextOf (exec (.cfgRead 0 0x10000) (rxState frame01))).map fun t => t.responses) = some [0x1C000045]
      ∧ exec (.cfgRead 0 0x10000) (rxState [0x45, 0x00]) = .fault .undefRead := by
  exact ⟨by decide, rfl⟩

/-- CFG-12: the strobe picks the bytes, at the first and at the last word of a window. -/
theorem test_cfgWrite_buffer :
    ((nextOf (exec (.cfgWrite 0x3 0x10000 0x1C000045) State.reset)).map fun t => t.rxbuf) = some [(0, 0x45), (1, 0x00)]
      ∧ ((nextOf (exec (.cfgWrite 0x8 0x2FFFC 0xAB000000) State.reset)).map fun t => t.txbuf) = some [(65535, 0xAB)] := by decide

/-- CFG-09 to CFG-11, CFG-17 and the BUILD_ARG mask of R47. -/
theorem test_cfgWrite_registers :
    ((nextOf (exec (.cfgWrite 0xF 0x04 0) (rxState []))).map fun t => t.ctrlReg) = some true
      ∧ ((nextOf (exec (.cfgWrite 0x3 0x10 0xC0A80002) State.reset)).map fun t => (t.hostIp, t.status.toWord)) = some (0, 8)
      ∧ ((nextOf (exec (.cfgWrite 0xF 0x14 7) State.reset)).map fun t => (t.idNext, t.status.toWord)) = some (0, 8)
      ∧ ((nextOf (exec (.cfgWrite 0xF 0x28 0xFFFFFFFF) State.reset)).map fun t => t.buildArg.toWord) = some 0x1FFFFFFF := by
  decide

/-- CMD-06, CMD-08: a rejected word, and RX_FRAME before registration. -/
theorem test_command_rejected :
    outcomeOf (exec (.cfgWrite 0xF 0x1C 0x40000000) State.reset) = some (0x3F, 4, [])
      ∧ outcomeOf (exec (.cfgWrite 0xF 0x1C 0x10000014) State.reset) = some (0x3F, 4, []) := by decide

/-! The checksum unit -/

/-- CK-01, CK-03, CK-04, CK-06, CK-07, CK-08, CK-09. -/
theorem test_cksum16 :
    cksum16 [] = 0xFFFF ∧ cksum16 [0x01] = 0xFEFF ∧ cksum16 [0x01, 0x02, 0x03] = 0xFBFD ∧ cksum16 [0xFF, 0xFF] = 0x0000
      ∧ cksum16 [0xFF, 0xFF, 0xFF, 0xFF] = 0x0000 ∧ cksum16 [0x00, 0x00] = 0xFFFF
      ∧ cksum16 [0x00, 0x01, 0xF2, 0x03, 0xF4, 0xF5, 0xF6, 0xF7] = 0x220D := by decide

/-! RX_FRAME -/

/-- V-RX-01 with its padding unwritten, and V-RX-12. -/
theorem test_rxFrame_dispatch :
    outcomeOf (exec (.rxFrame 32) (rxState frame01))
        = some (0x01, 0, [.disp 17 remote [0x04, 0xD2, 0x16, 0x2E, 0x00, 0x08, 0x00, 0x00]])
      ∧ outcomeOf (exec (.rxFrame 28) (rxState frame12))
        = some (0x02, 0, [.icmp remote 2 frame12, .disp 6 remote [0x04, 0xD2, 0x16, 0x2E, 0x00, 0x08, 0x00, 0x00]]) := by decide

/-- V-RX-14 with bytes 20 to 31 unwritten, and V-RX-16. -/
theorem test_rxFrame_faults :
    outcomeOf (exec (.rxFrame 32) (rxState frame14)) = some (0x30, 1, [])
      ∧ outcomeOf (exec (.rxFrame 28) (rxState frame16)) = some (0x31, 2, [.icmp remote 2 (frame16.take 24)]) := by decide

/-! TX_SEND and TX_BUILD -/

/-- V-SND-03, and V-SND-09 with P_MTU 28 and ID_NEXT 5. -/
theorem test_txSend :
    outcomeOf (exec (.txSend 17 1) (txState 1))
        = some (0x00010020, 0, [.tx remote [0x45, 0x00, 0x00, 0x15, 0x00, 0x00, 0x00, 0x00, 0x40, 0x11, 0xF9, 0x84, 0xC0, 0xA8,
          0x00, 0x02, 0xC0, 0xA8, 0x00, 0x01, 0x00]])
      ∧ outcomeOf (txSend { Config.ipv4core with mtu := 28 } 17 20 { txState 20 with idNext := 5 })
        = some (0x00030020, 0,
          [.tx remote [0x45, 0x00, 0x00, 0x1C, 0x00, 0x05, 0x20, 0x00, 0x40, 0x11, 0xD9, 0x78, 0xC0, 0xA8, 0x00, 0x02, 0xC0, 0xA8,
            0x00, 0x01, 0, 1, 2, 3, 4, 5, 6, 7],
          .tx remote [0x45, 0x00, 0x00, 0x1C, 0x00, 0x05, 0x20, 0x01, 0x40, 0x11, 0xD9, 0x77, 0xC0, 0xA8, 0x00, 0x02, 0xC0, 0xA8,
            0x00, 0x01, 8, 9, 10, 11, 12, 13, 14, 15],
          .tx remote [0x45, 0x00, 0x00, 0x18, 0x00, 0x05, 0x00, 0x02, 0x40, 0x11, 0xF9, 0x7A, 0xC0, 0xA8, 0x00, 0x02, 0xC0, 0xA8,
            0x00, 0x01, 16, 17, 18, 19]]) := by decide

/-- The wrap of ID_NEXT (V-SND-08, with one payload byte), and an unwritten payload byte (R239). -/
theorem test_txSend_ident :
    ((nextOf (exec (.txSend 17 1) { txState 1 with idNext := 0xFFFF })).map fun t => t.idNext) = some 0
      ∧ exec (.txSend 17 2) (txState 1) = .fault .undefRead := by
  exact ⟨by decide, rfl⟩

/-- V-BLD-02 and V-BLD-05. -/
theorem test_txBuild :
    outcomeOf (exec (.txBuild true 17 8) { txState 8 with buildArg := BuildArg.ofWord 0x00B91234 })
        = some (0x00010021, 0, [.tx remote [0x45, 0x00, 0x00, 0x1C, 0x12, 0x34, 0x20, 0xB9, 0x40, 0x11, 0xC6, 0x90, 0xC0, 0xA8,
          0x00, 0x02, 0xC0, 0xA8, 0x00, 0x01, 0, 1, 2, 3, 4, 5, 6, 7]])
      ∧ outcomeOf (exec (.txBuild false 17 1481) (txState 0)) = some (0x3F, 4, []) := by decide

/-! The machine -/

/-- The first transactions of P-1 and P-2 as the host's next move. -/
theorem test_step_runs :
    ((nextOf (step { State.reset with host := [asmSetIp 192 168 0 2] })).map fun t => (t.hostIp, t.host)) = some (0xC0A80002, [])
      ∧ ((nextOf (step { State.reset with host := [asmRx 28] })).map fun t => t.result.toWord) = some 0x3F := by decide

/-- The instruction of a table word runs as the first step after reset. -/
theorem test_withFetchWord :
    step (State.reset.withFetchWord 32 0x31110008) = exec (.txBuild true 17 8) State.reset
      ∧ step (State.reset.withFetchWord 25 0x0000020) = exec (.cfgRead 0 0x20) State.reset := by
  exact ⟨rfl, rfl⟩

/-- P-1's transactions: the LOADRX words of the first eight frame bytes. -/
theorem test_asmLoad :
    asmLoadRx 0 [0x45, 0x00, 0x00, 0x1C, 0x00, 0x01] = [.cfg 0x1F10000 0x1C000045, .cfg 0x1310004 0x00000100]
      ∧ asmSetBuild 0x77 2 = .cfg 0x1F00028 0x00020077 ∧ asmRegister = .cfg 0x1F00004 0x00000001 := by decide

/-- The configuration is an IPV4CORE (R8). -/
theorem ipv4core_admitted : Config.ipv4core.admitted := by decide

/-! Witnesses of the hypotheses of the obligations -/

theorem witness_DecodeEncodeRoundTrip :
    ∀ i ∈ [Instr.cfgRead 0xF 0xFFFFF, .cfgWrite 0xF 0x1C 0x40000000, .rxFrame 0xFFFF, .txSend 0xFF 0xFFFF, .txBuild true 0xFF 0xFFFF],
      i.wellFormed = true := by decide

/-- One word for each of the four clauses on words, the two clauses of `reject` with 1481 as the first LEN over MAXFRAG. -/
theorem witness_CommandWriteRunsCommand :
    ((0x1000FFFF : Word).toNat / 2 ^ 28 = 1 ∧ (0x1000FFFF : Word).toNat / 2 ^ 16 % 2 ^ 12 = 0)
      ∧ ((0x20FFFFFF : Word).toNat / 2 ^ 28 = 2 ∧ (0x20FFFFFF : Word).toNat / 2 ^ 24 % 2 ^ 4 = 0)
      ∧ ((0x31FFFFFF : Word).toNat / 2 ^ 28 = 3 ∧ (0x31FFFFFF : Word).toNat / 2 ^ 25 % 2 ^ 3 = 0)
      ∧ (¬ ((0x10010000 : Word).toNat / 2 ^ 28 = 1 ∧ (0x10010000 : Word).toNat / 2 ^ 16 % 2 ^ 12 = 0)
        ∧ ¬ ((0x10010000 : Word).toNat / 2 ^ 28 = 2 ∧ (0x10010000 : Word).toNat / 2 ^ 24 % 2 ^ 4 = 0)
        ∧ ¬ ((0x10010000 : Word).toNat / 2 ^ 28 = 3 ∧ (0x10010000 : Word).toNat / 2 ^ 25 % 2 ^ 3 = 0))
      ∧ State.reset.ctrlReg = false ∧ 1480 < (1481 : Half).toNat := by decide

/-- The first word of RXBUF, the last words of both windows, and an unwritten byte in each. -/
theorem witness_ReadReturnsBufferWord :
    ((0x10000 : CfgAddr).toNat % 4 = 0 ∧ 0x10000 ≤ (0x10000 : CfgAddr).toNat
        ∧ (rxState frame01).rxbuf.readRange ((0x10000 : CfgAddr).toNat - 0x10000) 4 = some [0x45, 0x00, 0x00, 0x1C])
      ∧ ((0x1FFFC : CfgAddr).toNat % 4 = 0 ∧ (0x1FFFC : CfgAddr).toNat ≤ 0x1FFFF
        ∧ Memory.readRange (bufferAt 65532 [1, 2, 3, 4]) ((0x1FFFC : CfgAddr).toNat - 0x10000) 4 = some [1, 2, 3, 4])
      ∧ ((0x2FFFC : CfgAddr).toNat % 4 = 0 ∧ 0x20000 ≤ (0x2FFFC : CfgAddr).toNat ∧ (0x2FFFC : CfgAddr).toNat ≤ 0x2FFFF
        ∧ Memory.readRange (bufferAt 65532 [1, 2, 3, 4]) ((0x2FFFC : CfgAddr).toNat - 0x20000) 4 = some [1, 2, 3, 4])
      ∧ (rxState frame01).rxbuf.read ((0x1001C : CfgAddr).toNat - 0x10000 + 0) = none
      ∧ (txState 3).txbuf.read ((0x20000 : CfgAddr).toNat - 0x20000 + 3) = none := by decide

/-- Misaligned, the first and the last reserved register word, the first and the last word above the map; a read-only register. -/
theorem witness_ErroneousTransactionOnlySetsBusErr :
    ([0x00001, 0x0002C, 0x0FFFC, 0x30000, 0xFFFFC].all fun addr : CfgAddr => decide (unreachable addr)) = true
      ∧ ([0x00000, 0x00028, 0x10000, 0x1FFFC, 0x20000, 0x2FFFC].all fun addr : CfgAddr => decide (¬ unreachable addr)) = true
      ∧ (0x24 : CfgAddr) ∈ [(0x00 : CfgAddr), 0x08, 0x0C, 0x14, 0x20, 0x24] := by decide

theorem witness_PartialStrobeRegisterWriteIgnored :
    ([0x00, 0x1C, 0x28].all fun addr : CfgAddr => decide (addr.toNat % 4 = 0 ∧ addr.toNat ≤ 0x28 ∧ (0x7 : BitVec 4) ≠ 0xF)) = true := by decide

/-- A registered state in which RX_FRAME, TX_SEND and TX_BUILD answer a next state, and an unregistered one. -/
theorem witness_RegistrationIsSetOnly :
    (0xFFFFFFFF : Word).toNat % 2 = 1 ∧ (rxState frame01).ctrlReg = true ∧ (nextOf (exec (.rxFrame 28) (rxState frame01))).isSome
      ∧ (rxState frame01).ctrlReg = true ∧ State.reset.ctrlReg = false ∧ (nextOf (exec (.txSend 17 1) (txState 1))).isSome
      ∧ (nextOf (exec (.txBuild true 17 1) (txState 1))).isSome := by decide

theorem witness_BufferWriteStoresStrobedBytes :
    ([0x10000, 0x1FFFC].all fun addr : CfgAddr => decide (addr.toNat % 4 = 0 ∧ 0x10000 ≤ addr.toNat ∧ addr.toNat ≤ 0x1FFFF)) = true
      ∧ ([0x20000, 0x2FFFC].all fun addr : CfgAddr => decide (addr.toNat % 4 = 0 ∧ 0x20000 ≤ addr.toNat ∧ addr.toNat ≤ 0x2FFFF)) = true
      ∧ (0x5 : BitVec 4).getLsbD 2 = true ∧ (0x5 : BitVec 4).getLsbD 3 = false := by decide

theorem witness_ReadHasNoSideEffects :
    (nextOf (exec (.cfgRead 0xF 0x30000) State.reset)).isSome ∧ (nextOf (exec (.cfgRead 0 0x10018) (rxState frame01))).isSome := by
  decide

/-- One write for each kind of target: a register, both windows, CMD with a partial strobe. -/
theorem witness_WriteChangesOnlyItsTarget :
    (nextOf (exec (.cfgWrite 0xF 0x10 1) State.reset)).isSome ∧ (nextOf (exec (.cfgWrite 0xF 0x1FFFC 1) State.reset)).isSome
      ∧ (nextOf (exec (.cfgWrite 0x8 0x20000 1) State.reset)).isSome ∧ (nextOf (exec (.cfgWrite 0x7 0x1C 0x10000014) State.reset)).isSome
      ∧ ¬ ((0x7 : BitVec 4) = 0xF ∧ (0x1C : CfgAddr) = 0x1C) := by decide

theorem witness_HeaderChecksumMasksField : 12 ≤ 20 ∧ 20 ≤ frame01.length := by decide

/-- A bit of the version, of the checksum field (CK-11) and of the last header byte. -/
theorem witness_SingleBitFlipFailsVerification :
    20 ≤ 20 ∧ 20 ≤ frame01.length ∧ cksumPasses frame01 20 ∧ (0 < 20 ∧ 7 < 8 ∧ ¬ (0 = 0 ∧ 7 < 4)) ∧ (11 < 20 ∧ ¬ (11 = 0 ∧ 0 < 4))
      ∧ (19 < 20 ∧ ¬ (19 = 0 ∧ 0 < 4)) := by decide

theorem witness_TwoZerosOfTheChecksum :
    20 ≤ headerZero.length ∧ 0 < plainSum (((headerZero.set 10 0).set 11 0).take 20)
      ∧ plainSum (((headerZero.set 10 0).set 11 0).take 20) % 65535 = 0 := by decide

theorem witness_ChecksumIsByteOrderIndependent : frame01.length % 2 = 0 := by decide

/-- LEN 0 and the last LEN below 20 (V-RX-03, V-RX-04). -/
theorem witness_ShortFrameDropped :
    (rxState []).ctrlReg = true ∧ (0 : Half).toNat < 20 ∧ (19 : Half).toNat < 20 ∧ ¬ (20 : Half).toNat < 20 := by decide

/-- V-RX-06, V-RX-05, V-RX-08 and V-RX-09: one frame for each of the four checks. -/
theorem witness_InvalidHeaderDropped :
    (∀ f ∈ [frame01.set 1 0x01, frame01.set 0 0x65, frame01, frame01.set 0 0x44],
        (rxState f).ctrlReg = true ∧ 20 ≤ (27 : Half).toNat ∧ (rxState f).rxHolds f ∧ 20 ≤ f.length)
      ∧ (byteAt (frame01.set 1 0x01) 1).toNat % 2 = 1 ∧ frameVersion (frame01.set 0 0x65) ≠ 4
      ∧ (27 : Half).toNat < frameTotalLen frame01 ∧ frameHeaderLen (frame01.set 0 0x44) < 20 := by decide

/-- V-RX-14 with only its first 20 bytes written; LEN 59 is the last below its header length. -/
theorem witness_HeaderOverrunFaults :
    (rxState frame14).ctrlReg = true ∧ (rxState frame14).rxHolds frame14 ∧ 20 ≤ frame14.length
      ∧ ([32, 59].all fun len : Half => decide (20 ≤ len.toNat ∧ frame14.length ≤ len.toNat ∧ frameHeaderValid frame14 len.toNat
        ∧ len.toNat < frameHeaderLen frame14)) = true := by decide

/-- V-RX-10; and a frame RX_FRAME completes on. -/
theorem witness_ChecksumMismatchDropped :
    (rxState (frame01.set 11 0x7D)).ctrlReg = true ∧ 20 ≤ (28 : Half).toNat
      ∧ (rxState (frame01.set 11 0x7D)).rxHolds (frame01.set 11 0x7D) ∧ frameHeaderValid (frame01.set 11 0x7D) 28
      ∧ frameHeaderLen (frame01.set 11 0x7D) ≤ 28 ∧ frameHeaderLen (frame01.set 11 0x7D) ≤ (frame01.set 11 0x7D).length
      ∧ hdrCksum (frame01.set 11 0x7D) (frameHeaderLen (frame01.set 11 0x7D)) ≠ be16 (frame01.set 11 0x7D) 10
      ∧ (nextOf (exec (.rxFrame 28) (rxState frame12))).isSome := by decide

/-- V-RX-25: HOST_IP at its reset value. -/
theorem witness_ForeignDestinationDropped :
    ({ rxState frame01 with hostIp := 0 } : State).ctrlReg = true ∧ 20 ≤ (28 : Half).toNat ∧ frameHeaderLen frame01 ≤ (28 : Half).toNat
      ∧ frameHeaderValid frame01 (28 : Half).toNat ∧ frameHeaderLen frame01 ≤ frame01.length
      ∧ hdrCksum frame01 (frameHeaderLen frame01) = be16 frame01 10
      ∧ State.rxHolds { rxState frame01 with hostIp := 0 } frame01 ∧ addrValue frame01 16 ≠ (0 : Word).toNat := by decide

/-- V-RX-01 (protocol 17) and V-RX-12 (protocol 6), LEN equal to the total length and above it; V-RX-18: header only. -/
theorem witness_AcceptedFrameDispatched :
    (∀ f ∈ [frame01, frame12], ∀ n ∈ [(28 : Half).toNat, (32 : Half).toNat], (rxState f).ctrlReg = true ∧ 20 ≤ n
        ∧ (rxState f).rxHolds f ∧ frameHeaderValid f n ∧ frameHeaderLen f ≤ frameTotalLen f ∧ frameTotalLen f ≤ f.length
        ∧ hdrCksum f (frameHeaderLen f) = be16 f 10 ∧ addrValue f 16 = (rxState f).hostIp.toNat)
      ∧ byteAt frame01 9 = 17 ∧ byteAt frame12 9 ≠ 1 ∧ byteAt frame12 9 ≠ 17
      ∧ frameHeaderLen headerZero = frameTotalLen headerZero ∧ frameHeaderValid headerZero 20
      ∧ hdrCksum headerZero 20 = be16 headerZero 10 := by decide

/-- V-RX-15 (protocol 17) and V-RX-16 (protocol 6). -/
theorem witness_StripUnderflowFaults :
    (∀ f ∈ [frame15, frame16], (rxState f).ctrlReg = true ∧ 20 ≤ (28 : Half).toNat ∧ (rxState f).rxHolds f
        ∧ frameHeaderValid f (28 : Half).toNat ∧ frameHeaderLen f ≤ (28 : Half).toNat ∧ frameTotalLen f < frameHeaderLen f
        ∧ frameHeaderLen f ≤ f.length ∧ hdrCksum f (frameHeaderLen f) = be16 f 10 ∧ addrValue f 16 = (rxState f).hostIp.toNat)
      ∧ byteAt frame15 9 = 17 ∧ byteAt frame16 9 ≠ 1 ∧ byteAt frame16 9 ≠ 17 := by decide

/-- V-RX-03, V-RX-08, V-RX-10 and V-RX-25: a drop at each of the four steps. -/
theorem witness_DropsAreSilent :
    ([exec (.rxFrame 19) (rxState frame01), exec (.rxFrame 27) (rxState frame01), exec (.rxFrame 28) (rxState (frame01.set 11 0x7D)),
        exec (.rxFrame 28) { rxState frame01 with hostIp := 0 }].map fun o => (nextOf o).map fun t => t.result.code)
      = [some .rxDropShort, some .rxDropHeader, some .rxDropChecksum, some .rxDropDest] := by decide

/-- V-RX-01: a buffer that differs in the padding; the frame completes. With only 19 bytes written both buffers fault. -/
theorem witness_ReceiveReadsOnlyDeclaredBytes :
    (rxState frame01).rxbuf.readRange 0 20 = some (frame01.take 20)
      ∧ (∀ a < 28, Memory.read (bufferAt 0 (frame01 ++ [0xAA])) a = (rxState frame01).rxbuf.read a)
      ∧ frameHeaderLen (frame01.take 20) = 20 ∧ frameTotalLen (frame01.take 20) = 28
      ∧ (nextOf (exec (.rxFrame 32) (rxState frame01))).isSome
      ∧ (rxState (frame01.take 19)).rxbuf.readRange 0 20 = none
      ∧ exec (.rxFrame 32) (rxState (frame01.take 19)) = .fault .undefRead := by
  exact ⟨by decide, by decide, by decide, by decide, by decide, by decide, rfl⟩

/-- The frame of V-RX-13, with IHL 6. -/
def frame13 : List Byte :=
  [0x46, 0x00, 0x00, 0x1C, 0x00, 0x02, 0x00, 0x00, 0x40, 0x11, 0xF6, 0x7A, 0xC0, 0xA8, 0x00, 0x01, 0xC0, 0xA8, 0x00, 0x02,
    0x01, 0x01, 0x01, 0x00, 0x04, 0xD2, 0x16, 0x2E]

/-- The last of the first 20 bytes unwritten; V-RX-13 with byte 22, and with its last header byte, unwritten; V-RX-01 with its last
datagram byte unwritten. -/
theorem witness_ReceiveFaultsOnUnwrittenByte :
    ((rxState (frame01.take 19)).ctrlReg = true ∧ 20 ≤ (20 : Half).toNat ∧ (rxState (frame01.take 19)).rxbuf.read 19 = none)
      ∧ (∀ n ∈ [22, 23], (rxState (frame13.take n)).rxHolds (frame13.take n) ∧ 20 ≤ (frame13.take n).length
        ∧ frameHeaderValid (frame13.take n) (28 : Half).toNat ∧ frameHeaderLen (frame13.take n) ≤ (28 : Half).toNat
        ∧ n < frameHeaderLen (frame13.take n) ∧ (rxState (frame13.take n)).rxbuf.read n = none)
      ∧ ((rxState (frame01.take 27)).rxHolds (frame01.take 27) ∧ frameHeaderValid (frame01.take 27) (28 : Half).toNat
        ∧ frameHeaderLen (frame01.take 27) ≤ (frame01.take 27).length
        ∧ hdrCksum (frame01.take 27) (frameHeaderLen (frame01.take 27)) = be16 (frame01.take 27) 10
        ∧ addrValue (frame01.take 27) 16 = (rxState (frame01.take 27)).hostIp.toNat
        ∧ 27 < frameTotalLen (frame01.take 27) ∧ (rxState (frame01.take 27)).rxbuf.read 27 = none)
      ∧ exec (.rxFrame 28) (rxState (frame13.take 22)) = .fault .undefRead := by
  exact ⟨by decide, by decide, by decide, rfl⟩

theorem witness_ReceiveTwiceEmitsTwice : (nextOf (exec (.rxFrame 28) (rxState frame12))).isSome := by decide

/-- LEN 0 and 8, the LENs on both sides of MAXFRAG, and an unwritten payload byte. -/
theorem witness_BuildEmitsOneFrame :
    ((0 : Half).toNat ≤ 1480 ∧ (txState 0).txHolds [] ∧ ([] : List Byte).length = (0 : Half).toNat)
      ∧ ((8 : Half).toNat ≤ 1480 ∧ (txState 8).txHolds [0, 1, 2, 3, 4, 5, 6, 7])
      ∧ ((1480 : Half).toNat ≤ 1480 ∧ 1480 < (1481 : Half).toNat)
      ∧ (8 < (9 : Half).toNat ∧ (9 : Half).toNat ≤ 1480 ∧ (txState 8).txbuf.read 8 = none) := by decide

theorem witness_SendEmitsFragmentsInOrder :
    0 < (1 : Half).toNat ∧ (txState 1).txHolds [0] ∧ ([0] : List Byte).length = (1 : Half).toNat := by decide

/-- Both values of P_ZERO_LEN_SEND are parameters of a machine. -/
theorem witness_ZeroLengthSend :
    { Config.ipv4core with zeroLenSend := .oneEmpty }.zeroLenSend = .oneEmpty
      ∧ { Config.ipv4core with zeroLenSend := .noFrame }.zeroLenSend = .noFrame := by decide

/-- The smallest and the largest admitted P_MTU, and this hardware's, with a payload of one byte. -/
theorem witness_FragmentsReassembleToPayload :
    (∀ mtu ∈ [28, 1500, 65532], { Config.ipv4core with mtu := mtu }.admitted) ∧ 0 < ([0] : List Byte).length
      ∧ ([0] : List Byte).length ≤ 65535 ∧ (txState 1).txHolds [0] := by decide

theorem witness_SendReadsExactlyItsPayload :
    (1 < (2 : Half).toNat ∧ (txState 1).txbuf.read 1 = none)
      ∧ (∀ a < (1 : Half).toNat, Memory.read (bufferAt 0 [0, 0xAA]) a = (txState 1).txbuf.read a)
      ∧ (nextOf (exec (.txSend 17 1) (txState 1))).isSome := by decide

theorem witness_CommandsChangeOnlyOutputs :
    (nextOf (exec (.rxFrame 32) (rxState frame14))).isSome ∧ (nextOf (exec (.txSend 17 1) (txState 1))).isSome
      ∧ (nextOf (exec (.txBuild false 17 1481) (txState 1))).isSome ∧ (nextOf (exec (.txBuild false 17 1) (txState 1))).isSome := by
  decide

theorem witness_CommandResults :
    (nextOf (exec (.rxFrame 28) (rxState frame16))).isSome ∧ (nextOf (exec (.txSend 17 1) (txState 1))).isSome
      ∧ (nextOf (exec (.txBuild false 17 1481) (txState 1))).isSome := by decide

theorem witness_StepRunsDecodedInstruction :
    { State.reset with host := [.cfg 0x1F00004 1, .reset] }.host = .cfg 0x1F00004 1 :: [.reset]
      ∧ (Instr.txSend 17 0).wellFormed = true
      ∧ { State.reset with host := [.cfg 0x1F0001C 0x20110000] }.host = [.cfg (encode (.txSend 17 0)).1 (encode (.txSend 17 0)).2]
      ∧ decodeTableWord 32 0x20110BB8 = some (.txSend 17 3000) := by decide

theorem witness_StepResetsOrIdles :
    { State.reset with host := [.reset, .reset] }.host = .reset :: [.reset] ∧ State.reset.host = [] := by decide

/-- A STATUS bit that stays, a registration that stays, and ID_NEXT's wrap to 0. -/
theorem witness_OnlyResetClears :
    ((nextOf (exec (.cfgRead 0 2) State.reset)).map fun t => exec (.cfgRead 0 8) t).isSome
      ∧ (nextOf (exec (.txSend 17 1) { txState 1 with idNext := 0xFFFF })).map (fun t => t.idNext) = some 0
      ∧ (nextOf (exec (.cfgWrite 0xF 0x04 0) (rxState []))).isSome := by decide

theorem witness_StatusAndResultSteerNothing :
    (nextOf (exec (.rxFrame 28) (rxState frame01))).isSome ∧ exec (.rxFrame 28) (rxState []) = .fault .undefRead := by
  exact ⟨by decide, rfl⟩

/-- A step that runs TX_SEND, and one that runs something else. -/
theorem witness_IdentificationCountsSends :
    (nextOf (step { txState 1 with host := [.cfg 0x1F0001C 0x20110001] })).isSome ∧ decodeRequest 0x1F0001C 0x20110001 = .txSend 17 1
      ∧ (nextOf (step { txState 1 with host := [.cfg 0x0000000 0] })).isSome ∧ decodeRequest 0x0000000 0 = .cfgRead 0 0
      ∧ (some (HostEvent.cfg 0x1F0001C 0x20110001)) ≠ some .reset := by decide

theorem witness_TraceOnlyGrows : (nextOf (exec (.rxFrame 28) (rxState frame16))).isSome := by decide

theorem witness_OnlyUnwrittenBytesFault : exec (.txBuild false 17 1) (txState 0) = .fault .undefRead := rfl

/-- A buffer with every byte written. -/
def fullBuffer : Memory := (List.range' 0 65536).map fun a => (a, 0)

theorem read_filled (n k i : Nat) (h : i < n) : Memory.read ((List.range' k n).map fun a => (a, (0 : Byte))) (k + i) = some 0 := by
  induction n generalizing k i with
  | zero => omega
  | succ n ih =>
    cases i with
    | zero => simp [List.range'_succ, Memory.read]
    | succ i =>
      have := ih (k + 1) i (by omega)
      simpa [List.range'_succ, Memory.read, Nat.add_assoc, Nat.add_comm 1] using this

theorem witness_WrittenBuffersAlwaysComplete :
    ∀ a < 65536, { State.reset with rxbuf := fullBuffer, txbuf := fullBuffer }.rxbuf.read a ≠ none
      ∧ { State.reset with rxbuf := fullBuffer, txbuf := fullBuffer }.txbuf.read a ≠ none := by
  intro a h
  have := read_filled 65536 0 a h
  rw [Nat.zero_add] at this
  exact ⟨by simpa [fullBuffer] using this ▸ Option.some_ne_none _, by simpa [fullBuffer] using this ▸ Option.some_ne_none _⟩

/-- Reset with one move of the host meets every invariant, and its step answers a next state. -/
theorem witness_StepKeepsInvariants :
    (nextOf (step { State.reset with host := [.cfg 0x1F00004 1] })).isSome
      ∧ State.buffersWf { State.reset with host := [.cfg 0x1F00004 1] } ∧ State.traceWf { State.reset with host := [.cfg 0x1F00004 1] }
      ∧ Result.wf { State.reset with host := [.cfg 0x1F00004 1] }.result
      ∧ State.resultRecorded { State.reset with host := [.cfg 0x1F00004 1] }
      ∧ State.registeredFirst { State.reset with host := [.cfg 0x1F00004 1] } := by
  refine ⟨by decide, ⟨⟨.nil, ?_⟩, .nil, ?_⟩, ?_, by decide, by decide, fun _ => ⟨?_, by decide⟩⟩
  all_goals intro x hx; cases hx

/-- A step that records a fault: V-RX-16 as the host's next move. -/
theorem witness_StepKeepsResultRecorded :
    (nextOf (step { rxState frame16 with host := [asmRx 28] })).isSome ∧ (rxState frame16).result.wf
      ∧ (rxState frame16).resultRecorded := by decide

/-- Six bytes at the last word boundary that holds them, and at 0. -/
theorem witness_LoadPlacesBytes :
    (65528 % 4 = 0 ∧ 65528 + [(1 : Byte), 2, 3, 4, 5, 6, 7, 8].length ≤ 65536)
      ∧ { State.reset with host := asmLoadRx 0 [1, 2] ++ [HostEvent.reset] }.host = asmLoadRx 0 [1, 2] ++ [HostEvent.reset]
      ∧ { State.reset with host := asmLoadTx 0 [1, 2] ++ [HostEvent.reset] }.host = asmLoadTx 0 [1, 2] ++ [HostEvent.reset] := by decide

end Sys2Proof.Tests
end

section
/-! PROOF. The state's rules on registers: a full-word register write, BUILD_ARG (R47), and CTRL.REG (R35, R171). -/

namespace Sys2Proof.Machine

variable {p : Params} {s s' t : State} {proto : Byte} {len : Nat}

/-! Writes of registers -/

/-- A full-word write at a register's address passes the bus checks and writes the register (R261, R265). -/
theorem exec_cfgWrite_regAddr (r : Reg) (wdata : Word) (s : State) :
    exec (.cfgWrite 0xF (regAddr r) wdata) s = writeReg Config.ipv4core wdata s r := by
  change cfgWrite Config.ipv4core 0xF (regAddr r) wdata s = _
  simp [cfgWrite]

/-! BUILD_ARG -/

/-- BUILD_ARG as read: OFFSET above the 16 bits of IDENT, and nothing above OFFSET (R47). -/
theorem BuildArg.toWord_toNat (a : BuildArg) : a.toWord.toNat = a.offset.toNat * 2 ^ 16 + a.ident.toNat := by
  simp only [BuildArg.toWord, append_toNat]; simp

/-- What a read returns after a write of `w` is `w` with bits 31 to 29 cleared (R47). -/
theorem BuildArg.toWord_ofWord (w : Word) : (BuildArg.ofWord w).toWord = w &&& 0x1FFFFFFF := by
  apply BitVec.eq_of_toNat_eq
  have hmask : (w &&& 0x1FFFFFFF).toNat = w.toNat % 2 ^ 29 := Nat.and_two_pow_sub_one_eq_mod w.toNat 29
  rw [hmask, BuildArg.toWord_toNat, BuildArg.ofWord, field_toNat, field_toNat]
  omega

/-! What keeps CTRL.REG -/

/-- CFG_READ keeps CTRL.REG (R260). -/
theorem cfgRead_ctrlReg {addr : CfgAddr} (e : cfgRead p addr s = .next t) : t.ctrlReg = s.ctrlReg := by
  rcases cfgRead_cases e with ⟨-, rfl⟩ | ⟨_, _, -, rfl⟩ | ⟨_, -, rfl⟩ <;> rfl

/-- RX_FRAME only reads CTRL.REG, whatever its outcome (R171). -/
theorem rxFrame_ctrlReg {n : Nat} (e : rxFrame p n s = .next t) : t.ctrlReg = s.ctrlReg := by
  rcases rxFrame_outcomes e with ⟨-, rfl⟩ | ⟨-, ⟨_, -, rfl⟩ | rfl | ⟨_, _, -, -, -, ⟨-, rfl⟩ | ⟨-, rfl⟩⟩⟩ <;>
    simp [rxNotify_eq]

/-- TX_SEND keeps CTRL.REG. -/
theorem txSend_ctrlReg (e : txSend p proto len s = .next t) : t.ctrlReg = s.ctrlReg := by
  rcases txSend_cases e with ⟨-, rfl⟩ | ⟨-, _, -, rfl⟩ <;> rfl

/-- TX_BUILD keeps CTRL.REG, rejected or not. -/
theorem txBuild_ctrlReg {mf : Bool} (e : txBuild p mf proto len s = .next t) : t.ctrlReg = s.ctrlReg := by
  rcases txBuild_cases e with ⟨-, rfl⟩ | ⟨-, _, -, rfl⟩ <;> rfl

/-- No command changes CTRL.REG. -/
theorem executeCommand_ctrlReg {w : Word} (e : executeCommand p w s = .next t) : t.ctrlReg = s.ctrlReg := by
  rcases executeCommand_cases p w s with ⟨_, -, h⟩ | ⟨_, _, -, h⟩ | ⟨_, _, _, -, h⟩ | ⟨_, -, h⟩ <;> rw [h] at e
  · exact rxFrame_ctrlReg e
  · exact txSend_ctrlReg e
  · exact txBuild_ctrlReg e
  · cases e; rfl

/-- A write can set CTRL.REG, by bit 0 of a word written to CTRL, and cannot clear it (R35). -/
theorem cfgWrite_keeps_registration {strb : BitVec 4} {addr : CfgAddr} {wdata : Word}
    (e : cfgWrite p strb addr wdata s = .next t) (hr : s.ctrlReg = true) : t.ctrlReg = true := by
  rcases cfgWrite_cases e with rfl | ⟨_, -, rfl⟩ | ⟨_, -, rfl⟩ | ⟨-, -, rfl⟩ | ⟨-, -, rfl⟩ | ⟨-, -, rfl⟩ | ⟨-, -, rfl⟩ | ⟨-, -, e⟩
  · exact hr
  · exact hr
  · exact hr
  · exact Bool.or_eq_true_iff.2 (.inl hr)
  · exact hr
  · exact hr
  · exact hr
  · exact (executeCommand_ctrlReg e).trans hr

/-- No instruction clears CTRL.REG (R35). -/
theorem exec_keeps_registration {i : Instr} (e : exec i s = .next t) (hr : s.ctrlReg = true) : t.ctrlReg = true := by
  cases i with
  | cfgRead strb addr => exact (cfgRead_ctrlReg e).trans hr
  | cfgWrite strb addr wdata => exact cfgWrite_keeps_registration e hr
  | rxFrame n => exact (rxFrame_ctrlReg e).trans hr
  | txSend proto n => exact (txSend_ctrlReg e).trans hr
  | txBuild mf proto n => exact (txBuild_ctrlReg e).trans hr

/-- Before registration RX_FRAME is rejected, before it reads RXBUF (R171). -/
theorem rxFrame_unregistered {n : Nat} (hr : s.ctrlReg = false) : rxFrame p n s = .next s.reject := by
  simp [rxFrame, hr]

/-! What the TX commands read -/

/-- A frame of TX_SEND depends on HOST_IP, TX_DST and ID_NEXT alone of the state (R230). -/
theorem sendFrame_congr (hip : s'.hostIp = s.hostIp) (hdst : s'.txDst = s.txDst) (hid : s'.idNext = s.idNext)
    (payload : List Byte) (mf : Bool) (off : Nat) : sendFrame p s' proto payload mf off = sendFrame p s proto payload mf off := by
  simp only [sendFrame, hip, hdst, hid]

/-- The frames of TX_SEND depend on TXBUF, HOST_IP, TX_DST and ID_NEXT alone of the state (R230). -/
theorem sendLoop_congr (hbuf : s'.txbuf = s.txbuf) (hip : s'.hostIp = s.hostIp) (hdst : s'.txDst = s.txDst)
    (hid : s'.idNext = s.idNext) (fuel cur off : Nat) :
    sendLoop p s' proto len fuel cur off = sendLoop p s proto len fuel cur off := by
  induction fuel generalizing cur off with
  | zero => rfl
  | succ fuel ih => simp only [sendLoop, hbuf, sendFrame_congr hip hdst hid, ih]

/-- A TX_SEND that completes does the same at any value of CTRL.REG (R171). -/
theorem txSend_ignores_registration (b : Bool) (e : txSend p proto len s = .next t) :
    txSend p proto len { s with ctrlReg := b } = .next { t with ctrlReg := b } := by
  rcases txSend_cases e with ⟨rfl, rfl⟩ | ⟨hl, frames, hf, rfl⟩
  · rfl
  · have hsame := sendLoop_congr (p := p) (proto := proto) (len := len) (s' := { s with ctrlReg := b }) (s := s)
      rfl rfl rfl rfl len 0 0
    exact txSend_of_frames hl (hsame.trans hf)

/-- A TX_BUILD that completes does the same at any value of CTRL.REG (R171). -/
theorem txBuild_ignores_registration {mf : Bool} (b : Bool) (e : txBuild p mf proto len s = .next t) :
    txBuild p mf proto len { s with ctrlReg := b } = .next { t with ctrlReg := b } := by
  rcases txBuild_cases e with ⟨hl, rfl⟩ | ⟨hl, payload, hp, rfl⟩
  · rw [txBuild, if_pos hl]; rfl
  · rw [txBuild, if_neg (Nat.not_lt.2 hl)]; exact withBytes_of_some hp _

/-! The obligations -/

/-- Settles O10: the write stores the two fields, which read back as the low 29 bits of the word; the fields' positions are those of
the number read. -/
theorem buildArgStoresMaskedWord : Obligations.BuildArgStoresMaskedWord := by
  refine ⟨fun p wdata s => ⟨_, exec_cfgWrite_regAddr .buildArg wdata s, BuildArg.toWord_ofWord wdata⟩, fun p s => ?_, rfl⟩
  have hident := s.buildArg.ident.isLt
  have hoffset := s.buildArg.offset.isLt
  have hread : (readReg p s .buildArg).toNat = s.buildArg.offset.toNat * 2 ^ 16 + s.buildArg.ident.toNat :=
    s.buildArg.toWord_toNat
  omega

/-- Settles O11: a write ors bit 0 into REG, every other operation keeps REG, and of the commands RX_FRAME alone reads it. -/
theorem registrationIsSetOnly : Obligations.RegistrationIsSetOnly := by
  refine ⟨fun wdata s hodd => ?_, fun _ _ _ => exec_keeps_registration, rfl, fun _ _ hr => rxFrame_unregistered hr,
    fun _ b _ _ _ _ => ⟨txSend_ignores_registration b, txBuild_ignores_registration b⟩⟩
  have hbit : wdata.getLsbD 0 = true := by rw [bit_eq, pow_zero, Nat.div_one]; exact decide_eq_true hodd
  calc exec (.cfgWrite 0xF 0x04 wdata) s
      = .next { s with ctrlReg := s.ctrlReg || wdata.getLsbD 0 } := exec_cfgWrite_regAddr .ctrl wdata s
    _ = .next { s with ctrlReg := true } := by rw [hbit, Bool.or_true]

end Sys2Proof.Machine
end

section
/-! PROOF. The fields of a received header (R106): the two nibbles of byte 0, big-endian 16-bit fields, single bytes, addresses. -/

namespace Sys2Proof.Machine

/-- VERSION is the high nibble of byte 0 (R106). -/
theorem parseHeader_version_toNat (f : List Byte) : (parseHeader f).version.toNat = frameVersion f := by
  have hnibble : (byteAt f 0).toNat / 2 ^ 4 < 2 ^ 4 := Nat.div_lt_of_lt_mul (byteAt f 0).isLt
  exact (field_toNat (byteAt f 0) 4 4).trans (Nat.mod_eq_of_lt hnibble)

/-- IHL is the low nibble of byte 0 (R106). -/
theorem parseHeader_ihl_toNat (f : List Byte) : (parseHeader f).ihl.toNat = (byteAt f 0).toNat % 16 := by
  calc (parseHeader f).ihl.toNat
      = (byteAt f 0).toNat / 2 ^ 0 % 2 ^ 4 := field_toNat (byteAt f 0) 0 4
    _ = (byteAt f 0).toNat % 16 := by norm_num

/-- Settles O21: byte 0 splits into its nibbles, the 16-bit fields are big-endian by `be16_toNat`, and TOS, TTL, PROTOCOL and the
bytes of the two addresses are taken as they stand. -/
theorem receivedHeaderFields : Obligations.ReceivedHeaderFields := fun f =>
  ⟨parseHeader_version_toNat f, parseHeader_ihl_toNat f, parseHeader_headerLen f, rfl,
    be16_toNat f 2, be16_toNat f 4, be16_toNat f 6, rfl, rfl, be16_toNat f 10, rfl, rfl⟩

end Sys2Proof.Machine
end

section
/-! PROOF. Verification of a header (R152 to R157): the checksum field counted as zero, the word sum of a header that passes, a
byte of it replaced, and the checksum that BUILD_FRAME inserts. -/

namespace Sys2Proof.Machine

variable {f : List Byte} {hl : Nat}

/-- Bytes 10 and 11 set to zero, in parts. -/
theorem zeroedField_eq (h12 : 12 ≤ f.length) :
    (f.set 10 0).set 11 0 = f.take 10 ++ [0x00, 0x00] ++ f.drop 12 := by
  have h10 : f.set 10 0 = f.take 10 ++ 0 :: f.drop 11 := by
    rw [List.set_eq_take_append_cons_drop, if_pos (by omega)]
  have hlast : f.drop 11 = f[11] :: f.drop 12 := List.drop_eq_getElem_cons (by omega)
  rw [h10, hlast, List.set_append_right _ _ (by simp), List.length_take_of_le (by omega), List.append_assoc]
  rfl

/-- HDR_CKSUM counts the checksum field as two zero bytes (R152). -/
theorem hdrCksum_eq_cksum16_zeroedField (h12 : 12 ≤ hl) (hlen : hl ≤ f.length) :
    hdrCksum f hl = cksum16 (((f.set 10 0).set 11 0).take hl) := by
  rw [List.take_set, List.take_set, zeroedField_eq (by simp; omega), List.take_take, Nat.min_eq_left (by omega), hdrCksum]

/-- With the checksum field zeroed the word sum of a header is less by that field. -/
theorem wordSum_zeroedField (h12 : 12 ≤ hl) (hlen : hl ≤ f.length) :
    wordSum (((f.set 10 0).set 11 0).take hl) + (be16 f 10).toNat = wordSum (f.take hl) := by
  have hhi : wordSum ((f.take hl).set 10 0) + 256 * (byteAt f 10).toNat = wordSum (f.take hl) := by
    simpa [byteAt_take f (show 10 < hl by omega)] using wordSum_set (f.take hl) 10 0 (by simp; omega)
  have hlo : wordSum (((f.take hl).set 10 0).set 11 0) + (byteAt f 11).toNat = wordSum ((f.take hl).set 10 0) := by
    simpa [byteAt_set_ne, byteAt_take f (show 11 < hl by omega)]
      using wordSum_set ((f.take hl).set 10 0) 11 0 (by simp; omega)
  have hfield : (be16 f 10).toNat = (byteAt f 10).toNat * 256 + (byteAt f 11).toNat := be16_toNat f 10
  rw [List.take_set, List.take_set]
  omega

/-- R151 and R153: the words of a header that passes verification, its field among them, sum to a multiple of 65535. -/
theorem wordSum_mod_of_cksumPasses (h12 : 12 ≤ hl) (hlen : hl ≤ f.length) (hpass : cksumPasses f hl) :
    wordSum (f.take hl) % 65535 = 0 := by
  have hfield : (be16 f 10).toNat = 0xFFFF - foldSum (wordSum (((f.set 10 0).set 11 0).take hl)) := by
    rw [← hpass, hdrCksum_eq_cksum16_zeroedField h12 hlen, cksum16_toNat, endAroundCarry_eq_foldSum]
  rw [← wordSum_zeroedField h12 hlen, hfield]
  have hle := foldSum_le (wordSum (((f.set 10 0).set 11 0).take hl))
  have hmod := foldSum_mod (wordSum (((f.set 10 0).set 11 0).take hl))
  omega

/-- A byte weighs 1 or 256 in the word sum, so another value there moves the sum by at most 256 * 255, which is under 65535. -/
theorem wordSum_set_mod_ne {b : List Byte} {i : Nat} {v : Byte} (hi : i < b.length) (hv : v ≠ byteAt b i) :
    wordSum (b.set i v) % 65535 ≠ wordSum b % 65535 := by
  have hset := wordSum_set b i v hi
  have hne : v.toNat ≠ (byteAt b i).toNat := fun h => hv (BitVec.toNat_inj.1 h)
  have hnew := v.isLt
  have hold := (byteAt b i).isLt
  split at hset <;> omega

/-- A flipped bit changes its byte. -/
theorem flipBit_ne (x : Byte) {k : Nat} (hk : k < 8) : x ^^^ BitVec.ofNat 8 (2 ^ k) ≠ x := by
  intro h
  have hzero : BitVec.ofNat 8 (2 ^ k) = 0 := by simpa using h
  have hpow : 2 ^ k % 2 ^ 8 = 0 := by simpa using congrArg BitVec.toNat hzero
  rw [Nat.mod_eq_of_lt (Nat.pow_lt_pow_right (by decide) hk)] at hpow
  exact absurd hpow (Nat.two_pow_pos k).ne'

/-- The checksum over words that sum to a positive multiple of 65535 (R151, R156). -/
theorem cksum16_eq_zero {b : List Byte} (hpos : 0 < plainSum b) (hmod : plainSum b % 65535 = 0) : cksum16 b = 0 := by
  rw [plainSum_eq_wordSum] at hpos hmod
  have hfold : foldSum (wordSum b) = 0xFFFF := by
    rw [foldSum, if_neg hpos.ne']; omega
  apply BitVec.eq_of_toNat_eq
  rw [cksum16_toNat, endAroundCarry_eq_foldSum, hfold]; rfl

/-! The obligations -/

/-- Settles O17: both word sums would be multiples of 65535, but the flip moves the sum by less than that, and not by 0. The
argument holds for the checksum field as for every other byte, and would hold for the IHL nibble at a fixed span. -/
theorem singleBitFlipFailsVerification : Obligations.SingleBitFlipFailsVerification := by
  intro f hl i k h20 hlen hpass hi hk _ hflip
  have hbefore := wordSum_mod_of_cksumPasses (by omega) hlen hpass
  have hafter := wordSum_mod_of_cksumPasses (by omega) (by simpa using hlen) hflip
  rw [List.take_set] at hafter
  refine wordSum_set_mod_ne (b := f.take hl) (by simp; omega) ?_ (hafter.trans hbefore.symm)
  rw [byteAt_take f hi]
  exact flipBit_ne _ hk

/-- Settles O18: HDR_CKSUM of the built header does not see the field, so it is the checksum that was inserted. -/
theorem builtHeaderPassesVerification : Obligations.BuiltHeaderPassesVerification := by
  intro p src dst proto ident mf off n
  constructor
  · calc hdrCksum (builtHeader p src dst proto ident mf off n) 20
        = cksum16 (outHeader p src dst proto ident mf off n 0) := hdrCksum_outHeader ..
      _ = be16 (builtHeader p src dst proto ident mf off n) 10 := (toBe16_join _).symm
  · rw [hdrCksum_outHeader, builtHeader]

/-- Settles O19: the folded sum is 0xFFFF and its complement 0x0000; the example header has such a sum. -/
theorem twoZerosOfTheChecksum : Obligations.TwoZerosOfTheChecksum := by
  refine ⟨fun f hl h20 hlen hpos hmod => ?_, by decide, by decide⟩
  have hzero : hdrCksum f hl = 0x0000 :=
    (hdrCksum_eq_cksum16_zeroedField (by omega) hlen).trans (cksum16_eq_zero hpos hmod)
  exact ⟨hzero, by rw [cksumPasses, hzero, eq_comm]⟩

end Sys2Proof.Machine
end

section
/-! PROOF. RX_FRAME on a received frame (R172 to R187): how each of steps 1 to 7 can end the command, and what every completed
RX_FRAME leaves in the trace and in RXBUF. -/

namespace Sys2Proof.Machine

variable {p : Params} {s t : State} {f d : List Byte} {n : Nat} {h : InboundHeader}

/-- RX_FRAME runs with this hardware's parameters and its LEN field as a number (R170). -/
theorem exec_rxFrame (len : Half) (s : State) : exec (.rxFrame len) s = rxFrame Config.ipv4core len.toNat s := rfl

/-! Steps 1 to 4 -/

/-- Step 1 drops a frame of fewer than 20 bytes before it reads RXBUF (R172). -/
theorem rxFrame_short (hr : s.ctrlReg = true) (hn : n < 20) : rxFrame p n s = .next (s.finish .rxDropShort 0) := by
  simp [rxFrame, hr, hn]

/-- The step-2 test succeeds exactly where one of the four checks of R174 fails. -/
theorem parseHeader_invalid_iff (f : List Byte) (n : Nat) : (parseHeader f).invalid n = true ↔ ¬ frameHeaderValid f n := by
  rw [← parseHeader_invalid, Bool.not_eq_false]

/-! Steps 5 to 7 -/

/-- Another protocol than ICMP's and UDP's is unsupported (R181). -/
theorem unsupportedProto_ipv4core {b : Byte} (hicmp : b ≠ 1) (hudp : b ≠ 17) : supportedProto Config.ipv4core b = false :=
  Bool.eq_false_iff.2 fun hs => ((supportedProto_ipv4core b).1 hs).elim hicmp hudp

/-! The code of a dispatched frame (R186) -/

theorem rxDoneCode_supported (hs : supportedProto p h.proto = true) : rxDoneCode p h = .rxDispatched := if_pos hs

theorem rxDoneCode_unsupported (hs : supportedProto p h.proto = false) : rxDoneCode p h = .rxUnreachDispatched := by
  simp [rxDoneCode, hs]

/-- None of the codes of a dispatched frame is a drop code. -/
theorem rxDoneCode_not_drop (p : Params) (h : InboundHeader) :
    rxDoneCode p h ∉ [ResultCode.rxDropShort, .rxDropHeader, .rxDropChecksum, .rxDropDest] := by
  unfold rxDoneCode
  split <;> decide

/-! The ends of step 7 -/

/-- Steps 5 to 7 where the declared datagram is written and holds its header: notify, strip and dispatch (R182 to R186). -/
theorem rxDeliver_dispatch (hd : s.rxbuf.readRange 0 h.datagramLen = some d) (hle : h.headerLen ≤ h.datagramLen) :
    rxDeliver p h s
      = .next (((rxNotify p h d s).emit (.disp h.proto h.src (d.drop h.headerLen))).finish (rxDoneCode p h) 0) := by
  rw [rxDeliver, withBytes_of_some hd, if_neg (Nat.not_lt.2 hle)]

/-- Steps 5 to 7 where the declared datagram is written and shorter than its header: notify, then STRIP_UNDERFLOW (R184). -/
theorem rxDeliver_underflow (hd : s.rxbuf.readRange 0 h.datagramLen = some d) (hlt : h.datagramLen < h.headerLen) :
    rxDeliver p h s = .next ((rxNotify p h d s).raiseFault .stripUnderflow) := by
  rw [rxDeliver, withBytes_of_some hd, if_pos hlt]

section Accepted

/-! A frame that passes steps 1 to 4 -/

variable (hr : s.ctrlReg = true) (hn : 20 ≤ n) (hf : s.rxHolds f) (hv : frameHeaderValid f n)
  (hc : hdrCksum f (frameHeaderLen f) = be16 f 10) (hdst : addrValue f 16 = s.hostIp.toNat)
include hr hn hf hv hc hdst

/-- An accepted frame whose header lies inside its datagram is dispatched (R180 to R186). -/
theorem rxFrame_dispatch (hle : frameHeaderLen f ≤ frameTotalLen f) (hlen : frameTotalLen f ≤ f.length) :
    rxFrame p n s = .next (((rxNotify p (parseHeader f) (f.take (frameTotalLen f)) s).emit
      (.disp (byteAt f 9) (addrAt f 12) ((f.take (frameTotalLen f)).drop (frameHeaderLen f)))).finish
      (rxDoneCode p (parseHeader f)) 0) := by
  have htl : frameTotalLen f ≤ n := by obtain ⟨-, -, htl, -⟩ := hv; exact htl
  have hd : s.rxbuf.readRange 0 (parseHeader f).datagramLen = some (f.take (frameTotalLen f)) := by
    rw [parseHeader_datagramLen]; exact State.rxHolds_take hf hlen
  rw [rxFrame_to_deliver hr hn hf hv (hle.trans htl) (hle.trans hlen) hc hdst, rxDeliver_dispatch hd (by simpa using hle),
    parseHeader_headerLen]
  rfl

/-- An accepted frame whose header runs past its datagram raises STRIP_UNDERFLOW after step 6 (R184). -/
theorem rxFrame_underflow (hh : frameHeaderLen f ≤ n) (hlt : frameTotalLen f < frameHeaderLen f)
    (hlen : frameHeaderLen f ≤ f.length) :
    rxFrame p n s = .next ((rxNotify p (parseHeader f) (f.take (frameTotalLen f)) s).raiseFault .stripUnderflow) := by
  have hd : s.rxbuf.readRange 0 (parseHeader f).datagramLen = some (f.take (frameTotalLen f)) := by
    rw [parseHeader_datagramLen]; exact State.rxHolds_take hf (hlt.le.trans hlen)
  rw [rxFrame_to_deliver hr hn hf hv hh hlen hc hdst, rxDeliver_underflow hd (by simpa using hlt)]

end Accepted

/-! Every RX_FRAME that completes -/

/-- RX_FRAME writes no byte of RXBUF (R178). -/
theorem rxFrame_rxbuf (e : rxFrame p n s = .next t) : t.rxbuf = s.rxbuf := by
  rcases rxFrame_outcomes e with ⟨-, rfl⟩ | ⟨-, ⟨_, -, rfl⟩ | rfl | ⟨_, _, -, -, -, ⟨-, rfl⟩ | ⟨-, rfl⟩⟩⟩ <;>
    simp [rxNotify_eq]

/-- Step 6 appends no record but the notification about the datagram `d` (R182). -/
theorem rxNotify_emits (p : Params) (h : InboundHeader) (d : List Byte) (s : State) :
    ∃ notices, (rxNotify p h d s).trace = s.trace ++ notices ∧ ∀ r ∈ notices, r = .icmp h.src p.icmpCodeProtoUnreach d := by
  cases hs : supportedProto p h.proto with
  | true => exact ⟨[], by rw [rxNotify_supported hs, List.append_nil], by simp⟩
  | false => exact ⟨[.icmp h.src p.icmpCodeProtoUnreach d], by rw [rxNotify_unsupported hs, State.emit_trace], by simp⟩

/-- A record that RX_FRAME appends is the notification about the declared datagram `d`, or the dispatch of `d` without its header;
the lengths are those that the first 20 bytes `f` declare (R180, R182, R185). -/
theorem rxFrame_emits {records : List Record} {r : Record} (e : rxFrame p n s = .next t) (ht : t.trace = s.trace ++ records)
    (hr : r ∈ records) :
    ∃ f d, s.rxbuf.readRange 0 20 = some f ∧ s.rxbuf.readRange 0 (frameTotalLen f) = some d
      ∧ (r = .icmp (parseHeader f).src p.icmpCodeProtoUnreach d
        ∨ (frameHeaderLen f ≤ frameTotalLen f
          ∧ r = .disp (parseHeader f).proto (parseHeader f).src (d.drop (frameHeaderLen f)))) := by
  have hgrew : t.trace ≠ s.trace := fun hs => List.ne_nil_of_mem hr (List.self_eq_append_right.1 (hs.symm.trans ht))
  rcases rxFrame_outcomes e with ⟨-, rfl⟩ | ⟨-, ⟨_, -, rfl⟩ | rfl | ⟨f, d, hf, hd, -, hend⟩⟩
  · exact absurd rfl hgrew
  · exact absurd rfl hgrew
  · exact absurd rfl hgrew
  · rw [parseHeader_datagramLen] at hd
    rw [parseHeader_datagramLen, parseHeader_headerLen] at hend
    obtain ⟨notices, hnotify, honly⟩ := rxNotify_emits p (parseHeader f) d s
    refine ⟨f, d, hf, hd, ?_⟩
    rcases hend with ⟨-, rfl⟩ | ⟨hle, rfl⟩
    · have hrecords : notices = records := List.append_cancel_left (hnotify.symm.trans ht)
      exact .inl (honly r (hrecords ▸ hr))
    · rw [State.finish_trace, State.emit_trace, hnotify, List.append_assoc] at ht
      rw [← List.append_cancel_left ht] at hr
      rcases List.mem_append.1 hr with hnotice | hdisp
      · exact .inl (honly r hnotice)
      · exact .inr ⟨hle, List.mem_singleton.1 hdisp⟩

/-- A drop code in RESULT means that RX_FRAME only wrote RESULT (R187). -/
theorem rxFrame_eq_finish_of_drop (e : rxFrame p n s = .next t)
    (hcode : t.result.code ∈ [ResultCode.rxDropShort, .rxDropHeader, .rxDropChecksum, .rxDropDest]) :
    ∃ c, t = s.finish c 0 := by
  rcases rxFrame_outcomes e with ⟨-, rfl⟩ | ⟨-, ⟨c, -, rfl⟩ | rfl | ⟨_, _, -, -, -, ⟨-, rfl⟩ | ⟨-, rfl⟩⟩⟩
  · simp at hcode
  · exact ⟨c, rfl⟩
  · simp at hcode
  · simp at hcode
  · exact absurd hcode (rxDoneCode_not_drop p _)

/-! The obligations -/

/-- Settles O22: step 1 comes before every read of RXBUF. -/
theorem shortFrameDropped : Obligations.ShortFrameDropped :=
  fun _ _ hr hn => rxFrame_short hr hn

/-- Settles O23: each of the four conditions fails one conjunct of the step-2 test. -/
theorem invalidHeaderDropped : Obligations.InvalidHeaderDropped := by
  intro len s f hr hn hf hl hbad
  have hv : ¬ frameHeaderValid f len.toNat := by
    rintro ⟨htos, hver, htl, hhl⟩
    omega
  rw [exec_rxFrame, rxFrame_to_header hr hn hf hl, if_pos ((parseHeader_invalid_iff f _).2 hv)]
  rfl

/-- Settles O24: step 2 passes, and the header length is tested before the rest of the header is read. -/
theorem headerOverrunFaults : Obligations.HeaderOverrunFaults := by
  intro len s f hr hn hf hl _ hv hover
  rw [exec_rxFrame, rxFrame_to_header hr hn hf hl, (parseHeader_invalid f _).2 hv, if_neg Bool.false_ne_true, if_pos hover]
  rfl

/-- Settles O25: step 3 drops on a mismatch, and every record comes from the datagram as RXBUF holds it. -/
theorem checksumMismatchDropped : Obligations.ChecksumMismatchDropped := by
  refine ⟨fun len s f hr hn hf hv hh hl hc => ?_, fun len s t e => ⟨rxFrame_rxbuf e, fun records ht => ⟨?_, ?_⟩⟩⟩
  · rw [exec_rxFrame, rxFrame_to_checksum hr hn hf hv hh hl, if_neg hc]
    rfl
  · intro dst code datagram hmem
    obtain ⟨f, d, hf, hd, hrec | ⟨-, hrec⟩⟩ := rxFrame_emits e ht hmem <;> cases hrec
    exact ⟨f, hf, Memory.readRange_length hd, hd⟩
  · intro proto src payload hmem
    obtain ⟨f, d, hf, hd, hrec | ⟨hle, hrec⟩⟩ := rxFrame_emits e ht hmem <;> cases hrec
    have hlen : d.length = frameTotalLen f := Memory.readRange_length hd
    have hpart := Memory.readRange_sub hd (i := frameHeaderLen f) (k := frameTotalLen f - frameHeaderLen f) (by omega)
    rw [List.take_of_length_le (by simp [hlen]), Nat.zero_add] at hpart
    exact ⟨f, hf, by rw [List.length_drop]; omega, hpart⟩

/-- Settles O26: step 4 compares the four destination bytes with HOST_IP as one number. -/
theorem foreignDestinationDropped : Obligations.ForeignDestinationDropped := by
  intro len s f hr hn hf hv hh hl hc hdst
  rw [exec_rxFrame, rxFrame_to_checksum hr hn hf hv hh hl, if_pos hc, rxDestination,
    if_neg (mt (parseHeader_dst f _).1 hdst)]
  rfl

/-- Settles O27: the two clauses differ in step 6 and in the code alone. -/
theorem acceptedFrameDispatched : Obligations.AcceptedFrameDispatched := by
  intro len s f hr hn hf hv hle hlen hc hdst
  rw [exec_rxFrame, rxFrame_dispatch hr hn hf hv hc hdst hle hlen]
  refine ⟨fun hproto => ?_, fun hicmp hudp => ?_⟩
  · have hs : supportedProto Config.ipv4core (parseHeader f).proto = true := (supportedProto_ipv4core _).2 hproto
    rw [rxNotify_supported hs, rxDoneCode_supported hs]
    rfl
  · have hs : supportedProto Config.ipv4core (parseHeader f).proto = false := unsupportedProto_ipv4core hicmp hudp
    rw [rxNotify_unsupported hs, rxDoneCode_unsupported hs, State.emit, State.emit_trace, List.append_assoc]
    rfl

/-- Settles O28: the two clauses differ in step 6 alone; the fault keeps the trace. -/
theorem stripUnderflowFaults : Obligations.StripUnderflowFaults := by
  intro len s f hr hn hf hv hh hlt hlen hc hdst
  rw [exec_rxFrame, rxFrame_underflow hr hn hf hv hc hdst hh hlt hlen]
  refine ⟨fun hproto => ?_, fun hicmp hudp => ?_⟩
  · rw [rxNotify_supported ((supportedProto_ipv4core _).2 hproto)]
    rfl
  · rw [rxNotify_unsupported (unsupportedProto_ipv4core hicmp hudp)]
    rfl

/-- Settles O29: the outcomes that do more than write RESULT have other codes. -/
theorem dropsAreSilent : Obligations.DropsAreSilent := by
  intro len s t e hcode
  obtain ⟨c, rfl⟩ := rxFrame_eq_finish_of_drop e hcode
  exact ⟨rfl, ⟨rfl, rfl, rfl, rfl, rfl, rfl, rfl, rfl⟩, rfl⟩

end Sys2Proof.Machine
end

section
/-! PROOF. TX_BUILD (R212 to R214), one lemma per end of the command: the length rejection, the unwritten payload byte, and the one
frame. The fields of that frame are `buildFrame_spec`'s. -/

namespace Sys2Proof.Machine

variable {p : Params} {s : State} {mf : Bool} {proto : Byte} {len : Nat} {payload : List Byte}

/-- TX_BUILD runs with this hardware's parameters and its LEN field as a number (R212). -/
theorem exec_txBuild (mf : Bool) (proto : Byte) (len : Half) (s : State) :
    exec (.txBuild mf proto len) s = txBuild Config.ipv4core mf proto len.toNat s := rfl

/-- `MAXFRAG` of this hardware (R7). -/
theorem maxFrag_ipv4core : Config.ipv4core.maxFrag = 1480 := rfl

/-- TX_BUILD over MAXFRAG is rejected before it reads TXBUF (R213). -/
theorem txBuild_overlong (hlen : p.maxFrag < len) : txBuild p mf proto len s = .next s.reject := if_pos hlen

/-- TX_BUILD within MAXFRAG stops at an unwritten payload byte (R302). -/
theorem txBuild_unwritten {a : Nat} (hlen : len ≤ p.maxFrag) (ha : a < len) (hread : s.txbuf.read a = none) :
    txBuild p mf proto len s = .fault .undefRead := by
  rw [txBuild, if_neg (Nat.not_lt.2 hlen)]
  exact withBytes_of_none (Memory.readRange_zero_eq_none_iff.2 ⟨a, ha, hread⟩) _

/-- TX_BUILD within MAXFRAG of a written payload emits BUILD_FRAME's record and finishes with one frame (R212, R214). -/
theorem txBuild_written (hlen : len ≤ p.maxFrag) (hpayload : s.txbuf.readRange 0 len = some payload) :
    txBuild p mf proto len s
      = .next ((s.emit (buildFrame p s.hostIp payload (ipBytes s.txDst) proto s.buildArg.ident mf s.buildArg.offset)).finish
        .txBuilt 1) := by
  rw [txBuild, if_neg (Nat.not_lt.2 hlen)]
  exact withBytes_of_some hpayload _

/-- Settles O32: the three clauses are the three ends of TX_BUILD, and a payload of at most 1480 bytes fits the total-length field,
so the record emitted is the frame that BUILD_FRAME specifies. -/
theorem buildEmitsOneFrame : Obligations.BuildEmitsOneFrame := by
  intro mf proto len s
  rw [exec_txBuild, ← maxFrag_ipv4core]
  refine ⟨fun payload hlen hpayload hpl => ?_, fun a ha hlen hread => txBuild_unwritten hlen ha hread,
    fun hlen => txBuild_overlong hlen⟩
  have hfits : payload.length ≤ 65515 := by rw [maxFrag_ipv4core] at hlen; omega
  obtain ⟨frame, hrecord, hframe⟩ := buildFrame_spec Config.ipv4core s.hostIp payload s.txDst proto s.buildArg.ident mf
    s.buildArg.offset hfits
  refine ⟨frame, hframe, ?_⟩
  have hread : s.txbuf.readRange 0 len.toNat = some payload := by rw [← hpl]; exact hpayload
  rw [txBuild_written hlen hread, hrecord]
  rfl

end Sys2Proof.Machine
end

section
/-! PROOF. TX_SEND (R230 to R240): one fragment as a frame, the fragment loop on a written payload, and the zero-length send. The
lemmas hold for every admitted MTU; the identification, addresses and checksum of a fragment are `buildFrame_spec`'s. -/

namespace Sys2Proof.Machine

variable {p : Params} {s : State} {proto : Byte} {len : Nat} {payload : List Byte}

/-- TX_SEND runs with this hardware's parameters and its LEN field as a number (R230). -/
theorem exec_txSend (proto : Byte) (len : Half) (s : State) :
    exec (.txSend proto len) s = txSend Config.ipv4core proto len.toNat s := rfl

/-- The end of TX_SEND written out, ID_NEXT as a number (R230, R236). -/
theorem completeSend_eq (s : State) (records : List Record) :
    s.completeSend records = { s with
      trace := s.trace ++ records, idNext := BitVec.ofNat 16 (s.idNext.toNat + 1),
      result := { code := .txSent, count := BitVec.ofNat 16 records.length } } := by
  have hid : s.idNext + 1 = BitVec.ofNat 16 (s.idNext.toNat + 1) := BitVec.eq_of_toNat_eq (by simp)
  rw [← hid]
  rfl

/-- A zero-length TX_SEND completes with what P_ZERO_LEN_SEND says (R238). -/
theorem txSend_zero (p : Params) (proto : Byte) (s : State) :
    txSend p proto 0 s = .next (s.completeSend (zeroLenFrames p s proto)) := if_pos rfl

/-- A frame of TX_SEND is the frame that R107 and R211 describe; an offset below 8192 fits its field (R237). -/
theorem sendFrame_spec (p : Params) (s : State) (proto : Byte) (mf : Bool) {off : Nat} (hfits : payload.length ≤ 65515)
    (hoff : off < 8192) :
    ∃ frame, sendFrame p s proto payload mf off = .tx (addrAt frame 16) frame
      ∧ frameIs p frame s.hostIp s.txDst proto s.idNext mf off payload := by
  have hfield : (BitVec.ofNat 13 off).toNat = off := Nat.mod_eq_of_lt hoff
  have hspec := buildFrame_spec p s.hostIp payload s.txDst proto s.idNext mf (BitVec.ofNat 13 off) hfits
  rw [hfield] at hspec
  exact hspec

/-! The Fragmenter (R231 to R235) -/

/-- The bytes of fragment `k`: MAXFRAG of them from `k * MAXFRAG` on, or the remainder (R233, R235). -/
def fragmentPayload (p : Params) (payload : List Byte) (k : Nat) : List Byte := (payload.drop (k * p.maxFrag)).take p.maxFrag

/-- The record of fragment `k`: MF set exactly when another fragment follows, the offset in 8-byte units (R234, R235). -/
def fragmentRecord (p : Params) (s : State) (proto : Byte) (payload : List Byte) (k : Nat) : Record :=
  sendFrame p s proto (fragmentPayload p payload k) (decide (k + 1 < payload.length ⌈/⌉ p.maxFrag)) (k * (p.maxFrag / 8))

/-- Fragment `k` exists exactly when a payload byte remains at its start (R232). -/
theorem lt_fragmentCount_iff {k : Nat} (hM : 0 < p.maxFrag) : k < len ⌈/⌉ p.maxFrag ↔ k * p.maxFrag < len := by
  rw [← not_le, ceilDiv_le_iff_le_mul hM, not_le, Nat.mul_comm]

/-- The read of round `k` of the loop gives the bytes of fragment `k` (R233). -/
theorem readRange_fragment {k : Nat} (hheld : s.txHolds payload) (hk : k * p.maxFrag < payload.length) :
    s.txbuf.readRange (k * p.maxFrag) (min (payload.length - k * p.maxFrag) p.maxFrag) = some (fragmentPayload p payload k) := by
  have hread := Memory.readRange_sub hheld (i := k * p.maxFrag) (k := min (payload.length - k * p.maxFrag) p.maxFrag) (by omega)
  rw [Nat.zero_add] at hread
  rw [hread, fragmentPayload, ← List.length_drop, Nat.min_comm, ← List.take_eq_take_min]

/-- The loop from the start of fragment `k` gives fragment `k` and the ones after it, in order (R230). -/
theorem sendLoop_fragments (hM : 0 < p.maxFrag) (hheld : s.txHolds payload) {n k fuel : Nat}
    (hn : k + n = payload.length ⌈/⌉ p.maxFrag) (hfuel : n ≤ fuel) :
    sendLoop p s proto payload.length fuel (k * p.maxFrag) (k * (p.maxFrag / 8))
      = some ((List.range' k n).map (fragmentRecord p s proto payload)) := by
  have hcount {j : Nat} := lt_fragmentCount_iff (k := j) (len := payload.length) hM
  induction n generalizing k fuel with
  | zero => exact sendLoop_done fuel _ (Nat.not_lt.1 fun hlt => by have := hcount.2 hlt; omega)
  | succ n ih =>
    obtain ⟨fuel, rfl⟩ := Nat.exists_eq_add_one.2 (show 0 < fuel by omega)
    have hk : k * p.maxFrag < payload.length := hcount.1 (by omega)
    have hmf : p.maxFrag < payload.length - k * p.maxFrag ↔ k + 1 < payload.length ⌈/⌉ p.maxFrag := by
      rw [hcount, Nat.succ_mul]; omega
    refine (sendLoop_round hk).2 ⟨_, _, readRange_fragment hheld hk, ?_, by rw [decide_eq_decide.2 hmf]; rfl⟩
    by_cases hmore : k + 1 < payload.length ⌈/⌉ p.maxFrag
    · rw [min_eq_right (hmf.2 hmore).le, ← Nat.succ_mul, ← Nat.succ_mul]
      exact ih (by omega) (by omega)
    · obtain rfl : n = 0 := by omega
      exact sendLoop_done fuel _ (by have := mt hmf.1 hmore; omega)

/-- TX_SEND of a written, non-empty payload emits its fragments in order (R230). -/
theorem txSend_written (hM : 0 < p.maxFrag) (hheld : s.txHolds payload) (hpos : 0 < payload.length) :
    txSend p proto payload.length s
      = .next (s.completeSend ((List.range (payload.length ⌈/⌉ p.maxFrag)).map (fragmentRecord p s proto payload))) := by
  have hfuel : payload.length ⌈/⌉ p.maxFrag ≤ payload.length :=
    (ceilDiv_le_iff_le_mul hM).2 (Nat.le_mul_of_pos_left _ hM)
  rw [List.range_eq_range']
  refine txSend_of_frames hpos ?_
  simpa using sendLoop_fragments (proto := proto) hM hheld (Nat.zero_add _) hfuel

/-- Every fragment of a payload is the frame that R107 and R211 describe (R234 to R237). -/
theorem fragmentRecord_spec (hp : p.admitted) (s : State) (proto : Byte) (hlen : payload.length ≤ 65535) {k : Nat}
    (hk : k < payload.length ⌈/⌉ p.maxFrag) :
    ∃ frame, fragmentRecord p s proto payload k = .tx (addrAt frame 16) frame
      ∧ frameIs p frame s.hostIp s.txDst proto s.idNext (decide (k + 1 < payload.length ⌈/⌉ p.maxFrag)) (k * (p.maxFrag / 8))
        (fragmentPayload p payload k) := by
  obtain ⟨hmin, hmax, -⟩ := hp
  have hM : p.maxFrag = p.mtu - 20 := rfl
  have hfits : (fragmentPayload p payload k).length ≤ 65515 := (List.length_take_le _ _).trans (by omega)
  have hoff : k * (p.maxFrag / 8) < 8192 := by
    have hstart : k * p.maxFrag < payload.length := (lt_fragmentCount_iff (by omega)).1 hk
    have hunits : k * (p.maxFrag / 8) ≤ k * p.maxFrag / 8 := Nat.mul_div_le_mul_div_assoc k p.maxFrag 8
    omega
  exact sendFrame_spec p s proto _ hfits hoff

/-- For every admitted MTU, TX_SEND of 1 to 65535 written bytes completes with the frames of its fragments, in order (R230). -/
theorem txSend_emits_fragments (hp : p.admitted) (proto : Byte) (hheld : s.txHolds payload) (hpos : 0 < payload.length)
    (hlen : payload.length ≤ 65535) :
    ∃ frames : List (List Byte), frames.length = payload.length ⌈/⌉ p.maxFrag
      ∧ txSend p proto payload.length s = .next (s.completeSend (frames.map fun frame => .tx (addrAt frame 16) frame))
      ∧ ∀ k, ∀ h : k < frames.length, frameIs p frames[k] s.hostIp s.txDst proto s.idNext
        (decide (k + 1 < frames.length)) (k * (p.maxFrag / 8)) (fragmentPayload p payload k) := by
  have hM : 0 < p.maxFrag := Nat.sub_pos_of_lt (by have := hp.1; omega)
  choose! frame hrecord hframe using fun k => fragmentRecord_spec (k := k) hp s proto hlen
  refine ⟨(List.range (payload.length ⌈/⌉ p.maxFrag)).map frame, by simp, ?_, fun k hk => ?_⟩
  · rw [txSend_written hM hheld hpos, List.map_map]
    exact congrArg (fun records => Host.Outcome.next (s.completeSend records))
      (List.map_congr_left fun k hk => hrecord k (List.mem_range.1 hk))
  · simpa using hframe k (by simpa using hk)

/-! The obligations -/

/-- Settles O33: MAXFRAG of this hardware is 1480, so an offset step is 185 units and the count is a division rounded up. -/
theorem sendEmitsFragmentsInOrder : Obligations.SendEmitsFragmentsInOrder := by
  intro proto len s payload hpos hheld hpl
  obtain ⟨frames, hcount, hsend, hframes⟩ := txSend_emits_fragments (p := Config.ipv4core) (by decide) proto hheld (by omega)
    (by have := len.isLt; omega)
  rw [hpl] at hcount hsend
  refine ⟨frames, hcount, ?_, hframes⟩
  rw [exec_txSend, hsend, completeSend_eq, List.length_map]

/-- Settles O34: LEN 0 never enters the loop, and the one empty frame is the one that BUILD_FRAME specifies. -/
theorem zeroLengthSend : Obligations.ZeroLengthSend := by
  refine ⟨fun p proto s => ⟨fun hone => ?_, fun hnone => ?_⟩, fun proto s => ⟨exec_txSend proto 0 s, ?_⟩⟩
  · obtain ⟨frame, hrecord, hframe⟩ := sendFrame_spec (payload := []) p s proto false (off := 0) (by decide) (by decide)
    refine ⟨frame, hframe, ?_⟩
    rw [txSend_zero, completeSend_eq, zeroLenFrames, hone, hrecord]
    rfl
  · rw [txSend_zero, completeSend_eq, zeroLenFrames, hnone, List.append_nil]
    rfl
  · exact ⟨_, txSend_zero Config.ipv4core proto s, by rw [completeSend_eq], by rw [completeSend_eq]⟩

end Sys2Proof.Machine
end

section
/-! PROOF. CFG_WRITE to the register block under a partial strobe (R265) and in the buffer windows (R263): where the address decode
takes it, and what a strobed store leaves in the buffer. -/

namespace Sys2Proof.Machine

variable {p : Params} {s : State} {strb : BitVec 4} {addr : CfgAddr} {wdata : Word} {o a k : Nat}

/-- CFG_WRITE runs with this hardware's parameters (R261). -/
theorem exec_cfgWrite (strb : BitVec 4) (addr : CfgAddr) (wdata : Word) (s : State) :
    exec (.cfgWrite strb addr wdata) s = cfgWrite Config.ipv4core strb addr wdata s := rfl

/-! The register block -/

/-- The block 0x00..0x28 has no hole: each of its eleven aligned addresses is a register's (R32). -/
theorem exists_reg_of_le (ha : addr.toNat % 4 = 0) (hle : addr.toNat ≤ 0x28) : ∃ r, addr = regAddr r := by
  have hblock : ∀ k < 11, (regAt (BitVec.ofNat 20 (4 * k))).isSome = true := by decide
  have haddr : addr = BitVec.ofNat 20 (4 * (addr.toNat / 4)) := by bv_omega
  obtain ⟨r, hr⟩ := Option.isSome_iff_exists.1 (hblock (addr.toNat / 4) (by omega))
  rw [← haddr] at hr
  exact ⟨r, regAt_eq_some hr⟩

/-- A register write without the full strobe is a bus error, whichever the register (R265). -/
theorem cfgWrite_partial_strobe (r : Reg) (hs : strb ≠ 0xF) : cfgWrite p strb (regAddr r) wdata s = .next s.busErr := by
  rw [cfgWrite, targetOf_regAddr]
  exact if_neg hs

/-! The buffer windows -/

/-- A write in the RXBUF window is a strobed store in RXBUF and nothing else (R263). -/
theorem cfgWrite_rxWindow (ha : addr.toNat % 4 = 0) (h1 : 0x10000 ≤ addr.toNat) (h2 : addr.toNat ≤ 0x1FFFF) :
    cfgWrite p strb addr wdata s = .next { s with rxbuf := s.rxbuf.writeStrobed (addr.toNat - 0x10000) wdata strb } := by
  simp only [cfgWrite, targetOf_rx ha h1 h2]

/-- A write in the TXBUF window is a strobed store in TXBUF and nothing else (R263). -/
theorem cfgWrite_txWindow (ha : addr.toNat % 4 = 0) (h1 : 0x20000 ≤ addr.toNat) (h2 : addr.toNat ≤ 0x2FFFF) :
    cfgWrite p strb addr wdata s = .next { s with txbuf := s.txbuf.writeStrobed (addr.toNat - 0x20000) wdata strb } := by
  simp only [cfgWrite, targetOf_tx ha h1 h2]

/-- Lane `k` as arithmetic on the data word (R73). -/
theorem lane_eq_ofNat (w : Word) (k : Nat) : lane w k = BitVec.ofNat 8 (w.toNat / 2 ^ (8 * k)) :=
  BitVec.eq_of_toNat_eq (by rw [lane, field_toNat, BitVec.toNat_ofNat])

/-- A byte whose strobe bit is set takes its lane of the data word (R263). -/
theorem Memory.read_writeStrobed_strobed (m : Memory) (o : Nat) (w : Word) (hk : k < 4) (hs : strb.getLsbD k = true) :
    (m.writeStrobed o w strb).read (o + k) = some (lane w k) := by
  rw [Memory.read_writeStrobed]
  interval_cases k <;> simp [hs]

/-- A byte that is no strobed lane's keeps its value, written or unwritten (R263). -/
theorem Memory.read_writeStrobed_unstrobed (m : Memory) (w : Word) (h : ∀ k < 4, strb.getLsbD k = true → a ≠ o + k) :
    (m.writeStrobed o w strb).read a = m.read a := by
  have hlane : ∀ k < 4, ¬ (a = o + k ∧ strb.getLsbD k = true) := fun k hk hlane => h k hk hlane.2 hlane.1
  rw [Memory.read_writeStrobed, if_neg (hlane 3 (by decide)), if_neg (hlane 2 (by decide)), if_neg (hlane 1 (by decide)),
    if_neg (hlane 0 (by decide))]

/-! The obligations -/

/-- Settles O8: every address of the block is a register's, CMD's among them, and the strobe is checked before the register. -/
theorem partialStrobeRegisterWriteIgnored : Obligations.PartialStrobeRegisterWriteIgnored := by
  intro strb addr wdata s ha hle hs
  obtain ⟨r, rfl⟩ := exists_reg_of_le ha hle
  exact cfgWrite_partial_strobe r hs

/-- Settles O12: either window's write is one strobed store, and a byte read back is its lane where strobed, the old byte where
not. -/
theorem bufferWriteStoresStrobedBytes : Obligations.BufferWriteStoresStrobedBytes := by
  intro strb addr wdata s ha
  simp only [exec_cfgWrite, ← lane_eq_ofNat]
  exact ⟨fun h1 h2 => ⟨_, cfgWrite_rxWindow ha h1 h2, fun _ => Memory.read_writeStrobed_strobed s.rxbuf _ wdata,
      fun _ => Memory.read_writeStrobed_unstrobed s.rxbuf wdata⟩,
    fun h1 h2 => ⟨_, cfgWrite_txWindow ha h1 h2, fun _ => Memory.read_writeStrobed_strobed s.txbuf _ wdata,
      fun _ => Memory.read_writeStrobed_unstrobed s.txbuf wdata⟩⟩

end Sys2Proof.Machine
end

section
/-! PROOF. The write of a command word (R110 to R114, R266): which words are one of the three commands, as arithmetic on the word,
and the rejection of every other word. -/

namespace Sys2Proof.Machine

variable {p : Params} {s : State} {w : Word}

/-- A full-word write to CMD executes its data as a command word (R266). -/
theorem exec_cmdWrite (w : Word) (s : State) : exec (.cfgWrite 0xF 0x1C w) s = executeCommand Config.ipv4core w s :=
  exec_cfgWrite_regAddr .cmd w s

/-! The three command words by their fields -/

/-- The RX_FRAME word of a length: OP 1, bits 27..16 zero, LEN in [15:0] (R111). -/
theorem eq_rxFrameWord_iff {len : Half} :
    w = rxFrameWord len ↔ w.toNat / 2 ^ 28 = 1 ∧ w.toNat / 2 ^ 16 % 2 ^ 12 = 0 ∧ len = BitVec.ofNat 16 w.toNat := by
  have hw := w.isLt
  have hlen := len.isLt
  rw [← BitVec.toNat_inj, rxFrameWord_toNat, ← BitVec.toNat_inj, BitVec.toNat_ofNat]
  omega

/-- The TX_SEND word of its operands: OP 2, bits 27..24 zero, PROTO in [23:16], LEN in [15:0] (R112). -/
theorem eq_txSendWord_iff {proto : Byte} {len : Half} :
    w = txSendWord proto len ↔ w.toNat / 2 ^ 28 = 2 ∧ w.toNat / 2 ^ 24 % 2 ^ 4 = 0
      ∧ proto = BitVec.ofNat 8 (w.toNat / 2 ^ 16) ∧ len = BitVec.ofNat 16 w.toNat := by
  have hw := w.isLt
  have hproto := proto.isLt
  have hlen := len.isLt
  simp only [← BitVec.toNat_inj, txSendWord_toNat, BitVec.toNat_ofNat]
  omega

/-- The TX_BUILD word of its operands: OP 3, bits 27..25 zero, MF in [24], PROTO in [23:16], LEN in [15:0] (R113). -/
theorem eq_txBuildWord_iff {mf : Bool} {proto : Byte} {len : Half} :
    w = txBuildWord mf proto len ↔ w.toNat / 2 ^ 28 = 3 ∧ w.toNat / 2 ^ 25 % 2 ^ 3 = 0
      ∧ mf = decide (w.toNat / 2 ^ 24 % 2 = 1) ∧ proto = BitVec.ofNat 8 (w.toNat / 2 ^ 16) ∧ len = BitVec.ofNat 16 w.toNat := by
  have hw := w.isLt
  have hproto := proto.isLt
  have hlen := len.isLt
  have hbit := mf.toNat_le
  have hmf : mf = decide (w.toNat / 2 ^ 24 % 2 = 1) ↔ w.toNat / 2 ^ 24 % 2 = mf.toNat := by cases mf <;> simp
  rw [hmf]
  simp only [← BitVec.toNat_inj, txBuildWord_toNat, BitVec.toNat_ofNat]
  omega

/-! What the write of a word runs -/

/-- The write of an RX_FRAME word is RX_FRAME (R266). -/
theorem exec_cmdWrite_rxFrame {len : Half} (hw : w = rxFrameWord len) :
    exec (.cfgWrite 0xF 0x1C w) s = exec (.rxFrame len) s := by
  rw [hw, exec_cmdWrite, executeCommand_rxFrameWord, exec_rxFrame]

/-- The write of a TX_SEND word is TX_SEND (R266). -/
theorem exec_cmdWrite_txSend {proto : Byte} {len : Half} (hw : w = txSendWord proto len) :
    exec (.cfgWrite 0xF 0x1C w) s = exec (.txSend proto len) s := by
  rw [hw, exec_cmdWrite, executeCommand_txSendWord, exec_txSend]

/-- The write of a TX_BUILD word is TX_BUILD (R266). -/
theorem exec_cmdWrite_txBuild {mf : Bool} {proto : Byte} {len : Half} (hw : w = txBuildWord mf proto len) :
    exec (.cfgWrite 0xF 0x1C w) s = exec (.txBuild mf proto len) s := by
  rw [hw, exec_cmdWrite, executeCommand_txBuildWord, exec_txBuild]

/-- A word that is none of the three commands is rejected (R114, R266). -/
theorem executeCommand_illegal (hrx : ¬ (w.toNat / 2 ^ 28 = 1 ∧ w.toNat / 2 ^ 16 % 2 ^ 12 = 0))
    (hsend : ¬ (w.toNat / 2 ^ 28 = 2 ∧ w.toNat / 2 ^ 24 % 2 ^ 4 = 0))
    (hbuild : ¬ (w.toNat / 2 ^ 28 = 3 ∧ w.toNat / 2 ^ 25 % 2 ^ 3 = 0)) : executeCommand p w s = .next s.reject := by
  rcases executeCommand_cases p w s with ⟨len, hw, -⟩ | ⟨proto, len, hw, -⟩ | ⟨mf, proto, len, hw, -⟩ | ⟨err, -, hreject⟩
  · obtain ⟨hop, hreserved, -⟩ := eq_rxFrameWord_iff.1 hw
    exact absurd ⟨hop, hreserved⟩ hrx
  · obtain ⟨hop, hreserved, -⟩ := eq_txSendWord_iff.1 hw
    exact absurd ⟨hop, hreserved⟩ hsend
  · obtain ⟨hop, hreserved, -⟩ := eq_txBuildWord_iff.1 hw
    exact absurd ⟨hop, hreserved⟩ hbuild
  · exact hreject

/-! The obligation -/

/-- Settles O4: a word with the fields of a command is that command's word, which executes as the command; any other is rejected, and
so are RX_FRAME before registration and TX_BUILD over MAXFRAG. -/
theorem commandWriteRunsCommand : Obligations.CommandWriteRunsCommand := by
  intro w s
  exact ⟨fun hop hreserved => exec_cmdWrite_rxFrame (eq_rxFrameWord_iff.2 ⟨hop, hreserved, rfl⟩),
    fun hop hreserved => exec_cmdWrite_txSend (eq_txSendWord_iff.2 ⟨hop, hreserved, rfl, rfl⟩),
    fun hop hreserved => exec_cmdWrite_txBuild (eq_txBuildWord_iff.2 ⟨hop, hreserved, rfl, rfl, rfl⟩),
    fun hrx hsend hbuild => (exec_cmdWrite w s).trans (executeCommand_illegal hrx hsend hbuild),
    fun _ hr => rxFrame_unregistered hr, fun _ _ _ hlen => txBuild_overlong hlen⟩

end Sys2Proof.Machine
end

section
/-! PROOF. What instructions keep of STATUS, CTRL.REG and ID_NEXT (R332): STATUS bits and CTRL.REG are only ever set, and ID_NEXT
stays or moves by 1. -/

namespace Sys2Proof.Machine

variable {p : Params} {s t : State} {proto : Byte} {len : Nat}

/-! The sticky bits of STATUS -/

/-- Every bit set in `f` is set in `g` (R37). -/
structure Status.KeptIn (f g : Status) : Prop where
  hdrOverrun : f.hdrOverrun = true → g.hdrOverrun = true
  stripUnderflow : f.stripUnderflow = true → g.stripUnderflow = true
  cmdErr : f.cmdErr = true → g.cmdErr = true
  busErr : f.busErr = true → g.busErr = true

theorem Status.keptIn_refl (f : Status) : f.KeptIn f := ⟨id, id, id, id⟩

theorem Status.keptIn_setFault (f : Status) (k : HwFault) : f.KeptIn (f.setFault k) := by
  cases k with
  | hdrOverrun => exact ⟨fun _ => rfl, id, id, id⟩
  | stripUnderflow => exact ⟨id, fun _ => rfl, id, id⟩

theorem Status.keptIn_setCmdErr (f : Status) : f.KeptIn f.setCmdErr := ⟨id, id, fun _ => rfl, id⟩

theorem Status.keptIn_setBusErr (f : Status) : f.KeptIn f.setBusErr := ⟨id, id, id, fun _ => rfl⟩

/-! What each operation does to STATUS and ID_NEXT -/

/-- CFG_READ sets at most BUS_ERR, and keeps ID_NEXT (R260, R262). -/
theorem cfgRead_status_idNext {addr : CfgAddr} (e : cfgRead p addr s = .next t) :
    s.status.KeptIn t.status ∧ t.idNext = s.idNext := by
  rcases cfgRead_cases e with ⟨-, rfl⟩ | ⟨_, _, -, rfl⟩ | ⟨_, -, rfl⟩
  · exact ⟨s.status.keptIn_setBusErr, rfl⟩
  · exact ⟨s.status.keptIn_refl, rfl⟩
  · exact ⟨s.status.keptIn_refl, rfl⟩

/-- RX_FRAME sets at most CMD_ERR or a fault's bit, and keeps ID_NEXT (R171, R300). -/
theorem rxFrame_status_idNext {n : Nat} (e : rxFrame p n s = .next t) :
    s.status.KeptIn t.status ∧ t.idNext = s.idNext := by
  rcases rxFrame_outcomes e with ⟨-, rfl⟩ | ⟨-, ⟨_, -, rfl⟩ | rfl | ⟨_, _, -, -, -, ⟨-, rfl⟩ | ⟨-, rfl⟩⟩⟩
  · exact ⟨s.status.keptIn_setCmdErr, rfl⟩
  · exact ⟨s.status.keptIn_refl, rfl⟩
  · exact ⟨s.status.keptIn_setFault .hdrOverrun, rfl⟩
  · rw [rxNotify_eq]
    exact ⟨s.status.keptIn_setFault .stripUnderflow, rfl⟩
  · rw [rxNotify_eq]
    exact ⟨s.status.keptIn_refl, rfl⟩

/-- TX_SEND keeps STATUS, and adds 1 to ID_NEXT (R236). -/
theorem txSend_status_idNext (e : txSend p proto len s = .next t) : t.status = s.status ∧ t.idNext = s.idNext + 1 := by
  rcases txSend_cases e with ⟨-, rfl⟩ | ⟨-, _, -, rfl⟩ <;> exact ⟨rfl, rfl⟩

/-- TX_BUILD sets at most CMD_ERR, and keeps ID_NEXT (R212, R213). -/
theorem txBuild_status_idNext {mf : Bool} (e : txBuild p mf proto len s = .next t) :
    s.status.KeptIn t.status ∧ t.idNext = s.idNext := by
  rcases txBuild_cases e with ⟨-, rfl⟩ | ⟨-, _, -, rfl⟩
  · exact ⟨s.status.keptIn_setCmdErr, rfl⟩
  · exact ⟨s.status.keptIn_refl, rfl⟩

/-! What every instruction does to them -/

/-- From `s` to `t` no STATUS bit is cleared, and ID_NEXT stays or moves by 1, modulo 65536. -/
structure State.SetsAndCounts (s t : State) : Prop where
  status : s.status.KeptIn t.status
  idNext : t.idNext = s.idNext ∨ t.idNext = s.idNext + 1

theorem State.SetsAndCounts.of_kept (h : s.status.KeptIn t.status ∧ t.idNext = s.idNext) : s.SetsAndCounts t :=
  ⟨h.left, .inl h.right⟩

theorem State.SetsAndCounts.of_unchanged (hstatus : t.status = s.status) (hid : t.idNext = s.idNext) : s.SetsAndCounts t :=
  .of_kept ⟨hstatus ▸ s.status.keptIn_refl, hid⟩

theorem State.SetsAndCounts.of_counted (h : t.status = s.status ∧ t.idNext = s.idNext + 1) : s.SetsAndCounts t :=
  ⟨h.left ▸ s.status.keptIn_refl, .inr h.right⟩

/-- Counting reaches 0 from 0xFFFF alone, by wrap-around; an ID_NEXT that stays was 0 before (R42). -/
theorem State.SetsAndCounts.idNext_eq_zero (h : s.SetsAndCounts t) (hzero : t.idNext = 0) :
    s.idNext = 0 ∨ s.idNext = 0xFFFF := by
  rcases h.idNext with hstay | hcount
  · exact .inl (hstay.symm.trans hzero)
  · have hwrap : s.idNext + 1 = 0 := hcount.symm.trans hzero
    exact .inr (by bv_omega)

/-- A command, or the rejection of a word that is none (R266). -/
theorem executeCommand_setsAndCounts {w : Word} (e : executeCommand p w s = .next t) : s.SetsAndCounts t := by
  rcases executeCommand_cases p w s with ⟨_, -, h⟩ | ⟨_, _, -, h⟩ | ⟨_, _, _, -, h⟩ | ⟨_, -, h⟩ <;> rw [h] at e
  · exact .of_kept (rxFrame_status_idNext e)
  · exact .of_counted (txSend_status_idNext e)
  · exact .of_kept (txBuild_status_idNext e)
  · cases e
    exact .of_kept ⟨s.status.keptIn_setCmdErr, rfl⟩

/-- A CFG_WRITE is a bus error, stores a buffer or a register that is neither STATUS nor ID_NEXT, or runs a command (R261, R262). -/
theorem cfgWrite_setsAndCounts {strb : BitVec 4} {addr : CfgAddr} {wdata : Word}
    (e : cfgWrite p strb addr wdata s = .next t) : s.SetsAndCounts t := by
  rcases cfgWrite_cases e with rfl | ⟨_, -, rfl⟩ | ⟨_, -, rfl⟩ | ⟨-, -, rfl⟩ | ⟨-, -, rfl⟩ | ⟨-, -, rfl⟩ | ⟨-, -, rfl⟩ | ⟨-, -, e⟩
  · exact .of_kept ⟨s.status.keptIn_setBusErr, rfl⟩
  · exact .of_unchanged rfl rfl
  · exact .of_unchanged rfl rfl
  · exact .of_unchanged rfl rfl
  · exact .of_unchanged rfl rfl
  · exact .of_unchanged rfl rfl
  · exact .of_unchanged rfl rfl
  · exact executeCommand_setsAndCounts e

/-- No instruction clears a STATUS bit (R37), and each keeps ID_NEXT or adds 1 to it (R42). -/
theorem exec_setsAndCounts {i : Instr} (e : exec i s = .next t) : s.SetsAndCounts t := by
  cases i with
  | cfgRead strb addr => exact .of_kept (cfgRead_status_idNext e)
  | cfgWrite strb addr wdata => exact cfgWrite_setsAndCounts e
  | rxFrame n => exact .of_kept (rxFrame_status_idNext e)
  | txSend proto n => exact .of_counted (txSend_status_idNext e)
  | txBuild mf proto n => exact .of_kept (txBuild_status_idNext e)

/-! The obligation -/

/-- Settles O43: an instruction only sets STATUS bits and CTRL.REG, and moves ID_NEXT by at most 1, so that a move reaches 0 from
0xFFFF alone. -/
theorem onlyResetClears : Obligations.OnlyResetClears := by
  refine ⟨fun i s t e => ?_, rfl, rfl, rfl⟩
  have h : s.SetsAndCounts t := exec_setsAndCounts e
  exact ⟨h.status.hdrOverrun, h.status.stripUnderflow, h.status.cmdErr, h.status.busErr, exec_keeps_registration e,
    h.idNext_eq_zero⟩

end Sys2Proof.Machine
end

section
/-! PROOF. Encoding and decoding (R110 to R116): what the decoder makes of each kind of transaction, and that it never answers
the one ill-formed term. -/

namespace Sys2Proof

variable {strb : BitVec 4} {addr : CfgAddr} {wdata w : Word} {i : Instr}

/-- A full-word write of a legal command word to CMD is the command (R266). -/
theorem decodeWrite_command (h : decodeCommand wdata = .ok i) : decodeWrite 0xF cmdAddr wdata = i := by
  simp [decodeWrite, h]

/-- The write of a command word that `decodeCommand` reads as `i` is the transaction of `i` (R115, R266). -/
theorem decodeRequest_cmdWriteRequest (h : decodeCommand w = .ok i) : decodeRequest cmdWriteRequest w = i := by
  simpa [decodeRequest, cmdWriteRequest] using decodeWrite_command h

/-- A well-formed CFG_WRITE is no command: its transaction decodes to the CFG_WRITE itself (R116). -/
theorem decodeWrite_of_wellFormed (h : (Instr.cfgWrite strb addr wdata).wellFormed = true) :
    decodeWrite strb addr wdata = .cfgWrite strb addr wdata := by
  rcases decodeWrite_eq strb addr wdata with hplain | ⟨rfl, rfl, hcommand⟩
  · exact hplain
  · have hlegal : isCommandWord wdata = true := (isCommandWord_iff_decodes wdata).2 ⟨_, hcommand⟩
    simp [Instr.wellFormed, hlegal] at h

/-- The transaction of a well-formed instruction decodes to the instruction (R115, R116). -/
theorem decodeRequest_encode (h : i.wellFormed = true) : decodeRequest (encode i).1 (encode i).2 = i := by
  cases i with
  | cfgRead strb addr => simp [encode, decodeRequest]
  | cfgWrite strb addr wdata => simp [encode, decodeRequest, decodeWrite_of_wellFormed h]
  | rxFrame len => exact decodeRequest_cmdWriteRequest (decodeCommand_rxFrameWord len)
  | txSend proto len => exact decodeRequest_cmdWriteRequest (decodeCommand_txSendWord proto len)
  | txBuild mf proto len => exact decodeRequest_cmdWriteRequest (decodeCommand_txBuildWord mf proto len)

/-- A command that `decodeCommand` answers is well-formed, and its transaction is the write of the word to CMD (R110 to R113). -/
theorem decodeCommand_sound (h : decodeCommand w = .ok i) : i.wellFormed = true ∧ encode i = (cmdWriteRequest, w) := by
  rcases decodeCommand_eq_ok h with ⟨_, rfl, rfl⟩ | ⟨_, _, rfl, rfl⟩ | ⟨_, _, _, rfl, rfl⟩ <;> exact ⟨rfl, rfl⟩

/-- A write that the decoder leaves a CFG_WRITE is well-formed (R116). -/
theorem wellFormed_of_decodeWrite (h : decodeWrite strb addr wdata = .cfgWrite strb addr wdata) :
    (Instr.cfgWrite strb addr wdata).wellFormed = true := by
  by_contra hill
  obtain ⟨⟨rfl, rfl⟩, hlegal⟩ : (strb = 0xF ∧ addr = cmdAddr) ∧ isCommandWord wdata = true := by
    simpa [Instr.wellFormed] using hill
  obtain ⟨i, hi⟩ := (isCommandWord_iff_decodes wdata).1 hlegal
  rw [decodeWrite_command hi] at h
  subst h
  rcases decodeCommand_eq_ok hi with ⟨_, h, -⟩ | ⟨_, _, h, -⟩ | ⟨_, _, _, h, -⟩ <;> cases h

/-- The decoder answers well-formed instructions only, and a write's instruction has the write's transaction (R115, R116). -/
theorem decodeWrite_sound (strb : BitVec 4) (addr : CfgAddr) (wdata : Word) :
    (decodeWrite strb addr wdata).wellFormed = true
      ∧ encode (decodeWrite strb addr wdata) = (encodeRequest true strb addr, wdata) := by
  rcases decodeWrite_eq strb addr wdata with hplain | ⟨rfl, rfl, hcommand⟩
  · rw [hplain]
    exact ⟨wellFormed_of_decodeWrite hplain, rfl⟩
  · exact decodeCommand_sound hcommand

theorem decodeRequest_write {request : BitVec 25} (h : requestWe request = true) :
    decodeRequest request wdata = decodeWrite (requestStrb request) (requestAddr request) wdata := if_pos h

theorem decodeRequest_read {request : BitVec 25} (h : requestWe request = false) :
    decodeRequest request wdata = .cfgRead (requestStrb request) (requestAddr request) := by
  simp [decodeRequest, h]

/-- Every transaction decodes to a well-formed instruction (R116). -/
theorem decodeRequest_wellFormed (request : BitVec 25) (wdata : Word) : (decodeRequest request wdata).wellFormed = true := by
  cases hwe : requestWe request with
  | false => rw [decodeRequest_read hwe]; rfl
  | true => rw [decodeRequest_write hwe]; exact (decodeWrite_sound _ _ _).1

/-! The obligations -/

/-- Settles O1: a request's fields are read back from it, a command's word decodes to the command, and a well-formed CFG_WRITE is no
command. -/
theorem decodeEncodeRoundTrip : Obligations.DecodeEncodeRoundTrip := fun _ => decodeRequest_encode

/-- Settles O2: a request is the encoding of its fields, and a word that decodes to a command is that command's word. -/
theorem encodeDecodeRoundTrip : Obligations.EncodeDecodeRoundTrip := by
  intro request wdata
  refine ⟨decodeRequest_wellFormed request wdata, ?_⟩
  have hfields := encodeRequest_fields request
  cases hwe : requestWe request with
  | false =>
    rw [hwe] at hfields
    rw [decodeRequest_read hwe]
    exact ⟨hfields, fun h => absurd h Bool.false_ne_true⟩
  | true =>
    rw [hwe] at hfields
    rw [decodeRequest_write hwe, (decodeWrite_sound _ _ _).2]
    exact ⟨hfields, fun _ => rfl⟩

/-- Settles O3: the six words are decoded by evaluation. -/
theorem tableWordsDecode : Obligations.TableWordsDecode := by
  unfold Obligations.TableWordsDecode
  decide

end Sys2Proof
end

section
/-! PROOF. The state after reset (R61), and the three moves of a step (R80, R330, R345). -/

namespace Sys2Proof.Machine

variable {s : State} {rest : List HostEvent}

/-- A step on a CFG transaction runs the instruction it decodes to (R80). -/
theorem step_cfg {request : BitVec 25} {wdata : Word} (h : s.host = .cfg request wdata :: rest) :
    step s = exec (decodeRequest request wdata) { s with host := rest } := by
  simp only [step, h]

/-- A step on a reset pulse restarts the machine (R330). -/
theorem step_reset (h : s.host = .reset :: rest) : step s = .next (State.restart { s with host := rest }) := by
  simp only [step, h]

/-- A step with no move left changes nothing (log 3). -/
theorem step_idle (h : s.host = []) : step s = .next s := by
  simp only [step, h]

/-- The transaction of a table word decodes to the word's instruction (log 9). -/
theorem decodeRequest_tableTransaction {nbits w : Nat} {i : Instr} (h : decodeTableWord nbits w = some i) :
    decodeRequest (tableTransaction nbits w).1 (tableTransaction nbits w).2 = i := by
  unfold decodeTableWord at h
  split at h
  · next hcmd =>
    have hdecodes : decodeCommand (BitVec.ofNat 32 (tableBits nbits w)) = .ok i := by
      split at h
      · next c hc => rw [hc, Option.some.inj h]
      · cases h
    rw [tableTransaction, if_pos hcmd]
    exact decodeRequest_cmdWriteRequest hdecodes
  · exact Option.some.inj h

/-! The obligations -/

/-- Settles O40: an encoded instruction and a table word are transactions that decode to the instruction. -/
theorem stepRunsDecodedInstruction : Obligations.StepRunsDecodedInstruction := by
  intro s rest
  refine ⟨fun request wdata h => step_cfg h, fun i hwf h => ?_, fun nbits w i hi => ?_⟩
  · rw [step_cfg h, decodeRequest_encode hwf]
  · rw [step_cfg (s := s.withFetchWord nbits w) rfl, decodeRequest_tableTransaction hi]
    rfl

/-- Settles O41: a restart is the reset state with the host's remaining moves. -/
theorem stepResetsOrIdles : Obligations.StepResetsOrIdles :=
  ⟨fun _ _ h => ⟨_, step_reset h, rfl, rfl, rfl, rfl, rfl, rfl, rfl, fun _ => ⟨rfl, rfl⟩, rfl, rfl⟩, fun _ => step_idle⟩

/-- Settles O42: every register with storage is read as its reset value, and the buffers and the trace are empty lists. -/
theorem resetState : Obligations.ResetState := by
  refine ⟨?_, rfl, rfl, rfl, fun _ => ⟨rfl, rfl⟩, rfl⟩
  decide

end Sys2Proof.Machine
end

section
/-! PROOF. CFG_READ and CFG_WRITE (R260 to R265): RESULT, STATUS and BUILD_ARG as the words read, the reads of registers and buffer
words, the accesses that reach nothing, and the frame of both transactions. -/

namespace Sys2Proof.Machine

variable {p : Params} {s t : State} {strb : BitVec 4} {addr : CfgAddr} {wdata : Word}

/-! Register words as numbers -/

/-- RESULT as read (R38). -/
theorem Result.toWord_toNat (r : Result) : r.toWord.toNat = r.count.toNat * 2 ^ 16 + r.code.toByte.toNat := by
  simp only [Result.toWord, append_toNat]
  simp
  omega

/-- STATUS as read: one bit for each flag (R36). -/
theorem Status.toWord_toNat (f : Status) :
    f.toWord.toNat = f.hdrOverrun.toNat + 2 * f.stripUnderflow.toNat + 4 * f.cmdErr.toNat + 8 * f.busErr.toNat := by
  simp only [Status.toWord, append_toNat]
  simp
  omega

/-- A data word of four lanes (R73). -/
theorem wordOfLanes_toNat (b0 b1 b2 b3 : Byte) :
    (wordOfLanes b0 b1 b2 b3).toNat = b0.toNat + b1.toNat * 2 ^ 8 + b2.toNat * 2 ^ 16 + b3.toNat * 2 ^ 24 := by
  simp only [wordOfLanes, append_toNat]
  omega

/-- A word by the number it stands for. -/
theorem word_eq_ofNat {w : Word} {n : Nat} (h : w.toNat = n) : w = BitVec.ofNat 32 n := by
  rw [← h, BitVec.ofNat_toNat, BitVec.setWidth_eq]

/-- The two fields that a write stores in BUILD_ARG, as arithmetic on the word (R47). -/
theorem BuildArg.ofWord_eq (w : Word) :
    BuildArg.ofWord w = { ident := BitVec.ofNat 16 w.toNat, offset := BitVec.ofNat 13 (w.toNat / 2 ^ 16) } := by
  have hident : w.extractLsb' 0 16 = BitVec.ofNat 16 w.toNat := by
    apply BitVec.eq_of_toNat_eq; rw [field_toNat, BitVec.toNat_ofNat, pow_zero, Nat.div_one]
  have hoffset : w.extractLsb' 16 13 = BitVec.ofNat 13 (w.toNat / 2 ^ 16) := by
    apply BitVec.eq_of_toNat_eq; rw [field_toNat, BitVec.toNat_ofNat]
  rw [BuildArg.ofWord, hident, hoffset]

/-! CFG_READ -/

/-- CFG_READ runs with this hardware's parameters and without its strobe (R260). -/
theorem exec_cfgRead (strb : BitVec 4) (addr : CfgAddr) (s : State) :
    exec (.cfgRead strb addr) s = cfgRead Config.ipv4core addr s := rfl

/-- A read at a register's address hands over the register's word (R260). -/
theorem exec_cfgRead_regAddr (strb : BitVec 4) (r : Reg) (s : State) :
    exec (.cfgRead strb (regAddr r)) s = .next (s.respond (readReg Config.ipv4core s r)) := by
  rw [exec_cfgRead, cfgRead, targetOf_regAddr]

/-- A read in the RXBUF window reads a word of RXBUF (R264). -/
theorem cfgRead_rxWindow (ha : addr.toNat % 4 = 0) (h1 : 0x10000 ≤ addr.toNat) (h2 : addr.toNat ≤ 0x1FFFF) :
    cfgRead p addr s = readBufferWord s.rxbuf (addr.toNat - 0x10000) s := by
  simp only [cfgRead, targetOf_rx ha h1 h2]

/-- A read in the TXBUF window reads a word of TXBUF (R264). -/
theorem cfgRead_txWindow (ha : addr.toNat % 4 = 0) (h1 : 0x20000 ≤ addr.toNat) (h2 : addr.toNat ≤ 0x2FFFF) :
    cfgRead p addr s = readBufferWord s.txbuf (addr.toNat - 0x20000) s := by
  simp only [cfgRead, targetOf_tx ha h1 h2]

/-- A buffer word of which one byte is unwritten is UNDEF_READ (R264, R302). -/
theorem readBufferWord_unwritten {m : Memory} {off k : Nat} (hk : k < 4) (h : m.read (off + k) = none) :
    readBufferWord m off s = .fault .undefRead := by
  have hword : m.readWord off = none := by
    rw [Memory.readWord_eq_none_iff]
    interval_cases k <;> simp_all
  simp only [readBufferWord, hword]

/-- A buffer word of four written bytes is handed over in lane order (R73, R264). -/
theorem readBufferWord_written {m : Memory} {off : Nat} {b0 b1 b2 b3 : Byte} (h : m.readRange off 4 = some [b0, b1, b2, b3]) :
    readBufferWord m off s = .next (s.respond
      (BitVec.ofNat 32 (b0.toNat + b1.toNat * 2 ^ 8 + b2.toNat * 2 ^ 16 + b3.toNat * 2 ^ 24))) := by
  obtain ⟨-, hbyte⟩ := Memory.readRange_eq_some_iff.1 h
  have hword : m.readWord off = some (wordOfLanes b0 b1 b2 b3) :=
    Memory.readWord_eq_some_iff.2
      ⟨b0, b1, b2, b3, hbyte 0 (by simp), hbyte 1 (by simp), hbyte 2 (by simp), hbyte 3 (by simp), rfl⟩
  rw [← word_eq_ofNat (wordOfLanes_toNat b0 b1 b2 b3)]
  exact readBufferWord_eq_next_iff.2 ⟨_, hword, rfl⟩

/-- The word a register reads as does not depend on the words read before (log 2). -/
theorem readReg_respond (p : Params) (s : State) (w : Word) (r : Reg) : readReg p (s.respond w) r = readReg p s r := by
  cases r <;> rfl

/-- Setting BUS_ERR again changes nothing (R37). -/
theorem State.busErr_respond_busErr (s : State) (w v : Word) :
    (s.busErr.respond w).busErr.respond v = (s.busErr.respond w).respond v := rfl

/-- A read that completed completes again, on the state it left, with the same word (R79). -/
theorem cfgRead_repeats (e : cfgRead p addr s = .next t) :
    ∃ w, (t = s.busErr.respond w ∨ t = s.respond w) ∧ cfgRead p addr t = .next (t.respond w) := by
  rcases cfgRead_cases e with ⟨ht, rfl⟩ | ⟨off, w, ht, rfl⟩ | ⟨r, ht, rfl⟩
  · refine ⟨0, .inl rfl, ?_⟩
    rcases ht with ht | ht <;> simp only [cfgRead, ht, State.busErr_respond_busErr]
  · refine ⟨w, .inr rfl, ?_⟩
    rcases ht with ⟨ht, hw⟩ | ⟨ht, hw⟩ <;> simp only [cfgRead, ht]
    · exact readBufferWord_eq_next_iff.2 ⟨w, hw, rfl⟩
    · exact readBufferWord_eq_next_iff.2 ⟨w, hw, rfl⟩
  · exact ⟨_, .inr rfl, by simp only [cfgRead, ht, readReg_respond]⟩

/-! Addresses that reach nothing, and read-only registers -/

/-- The addresses of the register block (R32). -/
theorem regAddr_toNat (r : Reg) : (regAddr r).toNat % 4 = 0 ∧ (regAddr r).toNat ≤ 0x28 := by
  cases r <;> decide

/-- An unreachable address decodes to no register and to no buffer word (R48, R78, R81). -/
theorem targetOf_unreachable (h : unreachable addr) : targetOf addr = .misaligned ∨ targetOf addr = .unmapped := by
  rcases targetOf_cases addr with ⟨-, ht⟩ | ⟨ha, h1, h2, -⟩ | ⟨ha, h1, h2, -⟩ | ⟨r, rfl, -⟩ | ⟨-, -, ht⟩
  · exact .inl ht
  · rcases h with h | h | h <;> omega
  · rcases h with h | h | h <;> omega
  · obtain ⟨ha, hle⟩ := regAddr_toNat r
    rcases h with h | h | h <;> omega
  · exact .inr ht

/-- A read that reaches nothing is a bus error and returns 0 (R262). -/
theorem cfgRead_unreachable (h : unreachable addr) : cfgRead p addr s = .next (s.busErr.respond 0) := by
  rcases targetOf_unreachable h with ht | ht <;> simp only [cfgRead, ht]

/-- A write that reaches nothing is a bus error (R262). -/
theorem cfgWrite_unreachable (h : unreachable addr) : cfgWrite p strb addr wdata s = .next s.busErr := by
  rcases targetOf_unreachable h with ht | ht <;> simp only [cfgWrite, ht]

/-- A write of a register that a full-word write leaves alone is a bus error under any strobe (R262, R265). -/
theorem cfgWrite_readOnly {r : Reg} (hr : writeReg p wdata s r = .next s.busErr) :
    cfgWrite p strb (regAddr r) wdata s = .next s.busErr := by
  by_cases hs : strb = 0xF
  · rw [cfgWrite, targetOf_regAddr]
    simp only [if_pos hs, hr]
  · exact cfgWrite_partial_strobe r hs

/-! The frame of CFG_WRITE -/

/-- The offset that the address decode gives in the RXBUF window (R81). -/
theorem targetOf_eq_rxWindow {off : Nat} (h : targetOf addr = .rxWindow off) :
    addr.toNat = 0x10000 + off ∧ off + 3 < bufferBytes := by
  unfold bufferBytes
  rcases targetOf_cases addr with ⟨-, ht⟩ | ⟨ha, h1, h2, ht⟩ | ⟨-, -, -, ht⟩ | ⟨r, -, ht⟩ | ⟨-, -, ht⟩ <;>
    simp only [ht, Target.rxWindow.injEq, reduceCtorEq] at h
  omega

/-- The offset that the address decode gives in the TXBUF window (R81). -/
theorem targetOf_eq_txWindow {off : Nat} (h : targetOf addr = .txWindow off) :
    addr.toNat = 0x20000 + off ∧ off + 3 < bufferBytes := by
  unfold bufferBytes
  rcases targetOf_cases addr with ⟨-, ht⟩ | ⟨-, -, -, ht⟩ | ⟨ha, h1, h2, ht⟩ | ⟨r, -, ht⟩ | ⟨-, -, ht⟩ <;>
    simp only [ht, Target.txWindow.injEq, reduceCtorEq] at h
  omega

/-! The obligations -/

/-- Settles O39: RESULT is the concatenation of its fields. -/
theorem resultCodeValues : Obligations.ResultCodeValues := ⟨Result.toWord_toNat, rfl⟩

/-- Settles O5: each of the eleven addresses is a register's, and the fields of the words read are numbers at their bit positions. -/
theorem readReturnsRegister : Obligations.ReadReturnsRegister := by
  intro strb s
  refine ⟨exec_cfgRead_regAddr strb .id s, ?_, ?_, ?_, exec_cfgRead_regAddr strb .hostIp s, ?_,
    exec_cfgRead_regAddr strb .txDst s, exec_cfgRead_regAddr strb .cmd s, exec_cfgRead_regAddr strb .mtu s,
    exec_cfgRead_regAddr strb .ttl s, ?_⟩
  · rw [← word_eq_ofNat (w := readReg Config.ipv4core s .ctrl) (by cases h : s.ctrlReg <;> simp [readReg, h])]
    exact exec_cfgRead_regAddr strb .ctrl s
  · rw [← word_eq_ofNat s.status.toWord_toNat]
    exact exec_cfgRead_regAddr strb .status s
  · rw [← word_eq_ofNat s.result.toWord_toNat]
    exact exec_cfgRead_regAddr strb .result s
  · rw [← word_eq_ofNat (w := s.idNext.setWidth 32) (by simp; omega)]
    exact exec_cfgRead_regAddr strb .idNext s
  · rw [← word_eq_ofNat s.buildArg.toWord_toNat]
    exact exec_cfgRead_regAddr strb .buildArg s

/-- Settles O6: an aligned address of a window is a buffer word, and both windows read alike. -/
theorem readReturnsBufferWord : Obligations.ReadReturnsBufferWord := by
  intro strb addr s ha
  rw [exec_cfgRead]
  refine ⟨fun h1 h2 => ?_, fun h1 h2 => ?_⟩
  · rw [cfgRead_rxWindow ha h1 h2]
    exact ⟨fun _ _ _ _ => readBufferWord_written, fun _ => readBufferWord_unwritten⟩
  · rw [cfgRead_txWindow ha h1 h2]
    exact ⟨fun _ _ _ _ => readBufferWord_written, fun _ => readBufferWord_unwritten⟩

/-- Settles O7: an unreachable address decodes to nothing, and each of the six listed addresses is a read-only register's. -/
theorem erroneousTransactionOnlySetsBusErr : Obligations.ErroneousTransactionOnlySetsBusErr := by
  intro strb addr wdata s
  refine ⟨fun h => ⟨cfgRead_unreachable h, cfgWrite_unreachable h⟩, fun h => ?_⟩
  simp only [List.mem_cons, List.not_mem_nil, or_false] at h
  rcases h with rfl | rfl | rfl | rfl | rfl | rfl
  · exact cfgWrite_readOnly (r := .id) rfl
  · exact cfgWrite_readOnly (r := .status) rfl
  · exact cfgWrite_readOnly (r := .result) rfl
  · exact cfgWrite_readOnly (r := .idNext) rfl
  · exact cfgWrite_readOnly (r := .mtu) rfl
  · exact cfgWrite_readOnly (r := .ttl) rfl

/-- Settles O9: a full-word write passes the bus checks and stores the register's writable bits. -/
theorem registerWriteStores : Obligations.RegisterWriteStores := by
  intro wdata s
  refine ⟨?_, exec_cfgWrite_regAddr .hostIp wdata s, exec_cfgWrite_regAddr .txDst wdata s, ?_⟩
  · have hbit : wdata.getLsbD 0 = decide (wdata.toNat % 2 = 1) := by rw [bit_eq, pow_zero, Nat.div_one]
    rw [← hbit]
    exact exec_cfgWrite_regAddr .ctrl wdata s
  · rw [← BuildArg.ofWord_eq]
    exact exec_cfgWrite_regAddr .buildArg wdata s

/-- Settles O13: a read adds one word and can set BUS_ERR, neither of which the next read looks at. -/
theorem readHasNoSideEffects : Obligations.ReadHasNoSideEffects := by
  intro strb strb' addr s t e
  obtain ⟨w, ht, hagain⟩ := cfgRead_repeats e
  refine ⟨w, ?_⟩
  rcases ht with rfl | rfl
  · exact ⟨rfl, fun _ => rfl, fun _ => ⟨rfl, rfl⟩, hagain⟩
  · exact ⟨rfl, id, fun _ => ⟨rfl, rfl⟩, hagain⟩

/-- Settles O14: of the eight outcomes of a CFG_WRITE each changes one field, at its own address; the command is excluded. -/
theorem writeChangesOnlyItsTarget : Obligations.WriteChangesOnlyItsTarget := by
  intro strb addr wdata s t e hcmd
  rcases cfgWrite_cases e with rfl | ⟨off, ht, rfl⟩ | ⟨off, ht, rfl⟩ | ⟨rfl, -, rfl⟩ | ⟨rfl, -, rfl⟩ | ⟨rfl, -, rfl⟩
    | ⟨rfl, -, rfl⟩ | ⟨rfl, rfl, -⟩
  · simp [Status.setBusErr]
  · obtain ⟨haddr, hoff⟩ := targetOf_eq_rxWindow ht
    unfold bufferBytes at hoff
    simp only [true_and, imp_self, implies_true, and_true]
    exact fun a ha => Memory.read_writeStrobed_outside _ _ _ (by omega)
  · obtain ⟨haddr, hoff⟩ := targetOf_eq_txWindow ht
    unfold bufferBytes at hoff
    simp only [true_and, imp_self, implies_true]
    exact fun a ha => Memory.read_writeStrobed_outside _ _ _ (by omega)
  · simp [regAddr]
  · simp [regAddr]
  · simp [regAddr]
  · simp [regAddr]
  · exact absurd ⟨rfl, rfl⟩ hcmd

end Sys2Proof.Machine
end

section
/-! PROOF. The checksum unit (R150 to R155): the closed form of CKSUM16, the masked checksum field, and sums of
byte-swapped words. -/

namespace Sys2Proof.Machine

/-- R151: the closed form of CKSUM16. -/
theorem cksum16_toNat_eq (b : List Byte) : (cksum16 b).toNat = 0xFFFF - foldSum (wordSum b) := by
  rw [cksum16_toNat, endAroundCarry_eq_foldSum]

/-- `fold` is 0 at 0 alone (R151). -/
theorem foldSum_eq_zero_iff {n : Nat} : foldSum n = 0 ↔ n = 0 := by
  unfold foldSum
  split <;> omega

/-- `fold` is 0xFFFF at the positive multiples of 65535 alone (R151). -/
theorem foldSum_eq_max_iff {n : Nat} : foldSum n = 0xFFFF ↔ 0 < n ∧ n % 65535 = 0 := by
  unfold foldSum
  split <;> omega

/-- `fold` is the one number up to 0xFFFF with the sum's residue that is 0 only where the sum is. -/
theorem eq_foldSum {x n : Nat} (hle : x ≤ 0xFFFF) (hmod : x % 65535 = n % 65535) (hzero : x = 0 ↔ n = 0) : x = foldSum n := by
  unfold foldSum
  split <;> omega

/-- The two bytes of a 16-bit number exchanged. -/
def swapBytes (x : Nat) : Nat := x % 256 * 256 + x / 256

/-- Exchanging the bytes of a 16-bit number multiplies it by 256 modulo 65535. -/
theorem swapBytes_mod {x : Nat} : swapBytes x % 65535 = 256 * x % 65535 := by
  unfold swapBytes
  omega

/-- Exchanging the bytes of each word multiplies the word sum by 256 modulo 65535. -/
theorem wordSum_swapPairs (b : List Byte) (h : b.length % 2 = 0) :
    wordSum (swapPairs b) % 65535 = 256 * wordSum b % 65535 := by
  match b, h with
  | [], _ => rfl
  | [_], h => simp at h
  | x :: y :: rest, h =>
    have ih := wordSum_swapPairs rest (by simp at h; omega)
    rw [swapPairs, wordSum_cons_cons, wordSum_cons_cons]
    omega

/-- Exchanging bytes keeps a zero sum zero, and no other becomes zero. -/
theorem wordSum_swapPairs_eq_zero (b : List Byte) (h : b.length % 2 = 0) : wordSum (swapPairs b) = 0 ↔ wordSum b = 0 := by
  match b, h with
  | [], _ => rfl
  | [_], h => simp at h
  | x :: y :: rest, h =>
    have ih := wordSum_swapPairs_eq_zero rest (by simp at h; omega)
    rw [swapPairs, wordSum_cons_cons, wordSum_cons_cons]
    omega

/-- R155: the folded sum of byte-swapped words is the folded sum with its bytes exchanged. -/
theorem foldSum_swapPairs (b : List Byte) (h : b.length % 2 = 0) :
    foldSum (wordSum (swapPairs b)) = swapBytes (foldSum (wordSum b)) := by
  have hle := foldSum_le (wordSum b)
  have hmod := foldSum_mod (wordSum b)
  have hzero := foldSum_eq_zero_iff (n := wordSum b)
  refine (eq_foldSum ?_ ?_ ?_).symm
  · unfold swapBytes; omega
  · rw [swapBytes_mod, wordSum_swapPairs b h]; omega
  · rw [wordSum_swapPairs_eq_zero b h, ← hzero]; unfold swapBytes; omega

/-! The obligations -/

/-- Settles O15: the carry loop computes `fold`, whose complement is 0 and 0xFFFF where `fold` is 0xFFFF and 0. -/
theorem checksumClosedForm : Obligations.ChecksumClosedForm := by
  intro b
  have hle := foldSum_le (wordSum b)
  have hform := cksum16_toNat_eq b
  rw [plainSum_eq_wordSum, ← foldSum_eq_max_iff, ← foldSum_eq_zero_iff, ← BitVec.toNat_inj, ← BitVec.toNat_inj, hform]
  refine ⟨rfl, ?_, ?_⟩
  · change 0xFFFF - foldSum (wordSum b) = 0 ↔ _
    omega
  · change 0xFFFF - foldSum (wordSum b) = 0xFFFF ↔ _
    omega

/-- Settles O16: both sides are CKSUM16 of the span with the field zeroed, which overwrites any bytes 10 and 11. -/
theorem headerChecksumMasksField : Obligations.HeaderChecksumMasksField := by
  intro b span x y h12 hlen
  have hmasked : (((b.set 10 x).set 11 y).set 10 0).set 11 0 = (b.set 10 0).set 11 0 := by
    rw [List.set_comm _ _ (by decide : (11 : Nat) ≠ 10), List.set_set, List.set_set]
  refine ⟨?_, hdrCksum_eq_cksum16_zeroedField h12 hlen⟩
  rw [hdrCksum_eq_cksum16_zeroedField h12 (by simpa using hlen), hmasked, hdrCksum_eq_cksum16_zeroedField h12 hlen]

/-- Settles O20: complement and byte exchange commute on 16-bit numbers. -/
theorem checksumIsByteOrderIndependent : Obligations.ChecksumIsByteOrderIndependent := by
  intro b h
  have hle := foldSum_le (wordSum b)
  rw [cksum16_toNat_eq, cksum16_toNat_eq, foldSum_swapPairs b h]
  unfold swapBytes
  omega

end Sys2Proof.Machine
end

section
/-! PROOF. TX_SEND and TX_BUILD as a whole (R212, R230 to R244): which payload bytes the fragment loop reads, the fragments joined
again, and the records of both commands as well-formed records. -/

namespace Sys2Proof.Machine

variable {p : Params} {s s' t : State} {proto : Byte} {len : Nat} {payload : List Byte}

/-- Where the fragment loop ends with frames, it has read every byte up to the payload's end (R230, R239). -/
theorem sendLoop_reads (hM : 0 < p.maxFrag) {fuel cur off : Nat} {frames : List Record} (hfuel : len - cur ≤ fuel)
    (h : sendLoop p s proto len fuel cur off = some frames) {a : Nat} (hcur : cur ≤ a) (ha : a < len) :
    s.txbuf.read a ≠ none := by
  induction fuel generalizing cur off frames with
  | zero => omega
  | succ fuel ih =>
    obtain ⟨payload, rest, hread, hrest, -⟩ := (sendLoop_round (by omega)).1 h
    by_cases hnow : a < cur + min (len - cur) p.maxFrag
    · intro hnone
      have hrange : s.txbuf.readRange cur (min (len - cur) p.maxFrag) = none :=
        Memory.readRange_eq_none_iff.2 ⟨a - cur, by omega, by rwa [Nat.add_sub_cancel' hcur]⟩
      rw [hread] at hrange
      cases hrange
    · exact ih (by omega) hrest (by omega)

/-- A TX_SEND that meets an unwritten payload byte is UNDEF_READ (R239, R302). -/
theorem txSend_unwritten (hM : 0 < p.maxFrag) {a : Nat} (ha : a < len) (hread : s.txbuf.read a = none) :
    txSend p proto len s = .fault .undefRead := by
  have hnone : sendLoop p s proto len len 0 0 = none := by
    cases hloop : sendLoop p s proto len len 0 0 with
    | none => rfl
    | some frames => exact absurd hread (sendLoop_reads hM (Nat.sub_le _ _) hloop (Nat.zero_le a) ha)
  have hne : len ≠ 0 := by omega
  simp only [txSend, hne, if_false, hnone]

/-- A TX_SEND of written bytes completes (R230, R239). -/
theorem txSend_completes (hM : 0 < p.maxFrag) (hread : ∀ a < len, s.txbuf.read a ≠ none) :
    ∃ t, txSend p proto len s = .next t := by
  rcases Nat.eq_zero_or_pos len with rfl | hpos
  · exact ⟨_, txSend_zero p proto s⟩
  · cases hr : s.txbuf.readRange 0 len with
    | none =>
      obtain ⟨a, ha, hnone⟩ := Memory.readRange_zero_eq_none_iff.1 hr
      exact absurd hnone (hread a ha)
    | some payload =>
      obtain rfl := Memory.readRange_length hr
      exact ⟨_, txSend_written hM hr hpos⟩

/-- A TX_SEND that completes has LEN 0, or a written payload whose fragments it emits in order (R230). -/
theorem txSend_cases_written (hM : 0 < p.maxFrag) (e : txSend p proto len s = .next t) :
    (len = 0 ∧ t = s.completeSend (zeroLenFrames p s proto))
      ∨ ∃ payload, s.txHolds payload ∧ payload.length = len
        ∧ t = s.completeSend ((List.range (len ⌈/⌉ p.maxFrag)).map (fragmentRecord p s proto payload)) := by
  rcases txSend_cases e with hzero | ⟨hpos, -⟩
  · exact .inl hzero
  · cases hr : s.txbuf.readRange 0 len with
    | none =>
      obtain ⟨a, ha, hnone⟩ := Memory.readRange_zero_eq_none_iff.1 hr
      rw [txSend_unwritten hM ha hnone] at e
      cases e
    | some payload =>
      obtain rfl := Memory.readRange_length hr
      rw [txSend_written hM hr hpos] at e
      cases e
      exact .inr ⟨payload, hr, rfl, rfl⟩

/-! What TX_SEND reads of the state -/

/-- The fragment loop depends on no byte of TXBUF outside the payload (R239). -/
theorem sendLoop_congr_txbuf {m : Memory} (hm : ∀ a < len, m.read a = s.txbuf.read a) (fuel cur off : Nat) :
    sendLoop p { s with txbuf := m } proto len fuel cur off = sendLoop p s proto len fuel cur off := by
  induction fuel generalizing cur off with
  | zero => rfl
  | succ fuel ih =>
    have hrange : m.readRange cur (min (len - cur) p.maxFrag) = s.txbuf.readRange cur (min (len - cur) p.maxFrag) :=
      Memory.readRange_congr fun i hi => hm _ (by omega)
    simp only [sendLoop, hrange, ih]
    rfl

/-- A TX_SEND that completes does the same on any TXBUF that agrees on its payload (R239). -/
theorem txSend_congr_txbuf {m : Memory} (hm : ∀ a < len, m.read a = s.txbuf.read a) (e : txSend p proto len s = .next t) :
    txSend p proto len { s with txbuf := m } = .next { t with txbuf := m } := by
  rcases txSend_cases e with ⟨rfl, rfl⟩ | ⟨hpos, frames, hframes, rfl⟩
  · exact txSend_zero p proto _
  · exact txSend_of_frames hpos ((sendLoop_congr_txbuf hm len 0 0).trans hframes)

/-! The fragments joined again -/

theorem fragmentPayload_length (p : Params) (payload : List Byte) (k : Nat) :
    (fragmentPayload p payload k).length = min p.maxFrag (payload.length - k * p.maxFrag) := by
  simp [fragmentPayload]

/-- The fragments from `k` on join to the payload from the start of fragment `k` on (R241). -/
theorem fragmentPayload_flatten (hM : 0 < p.maxFrag) {n k : Nat} (hn : k + n = payload.length ⌈/⌉ p.maxFrag) :
    ((List.range' k n).map (fragmentPayload p payload)).flatten = payload.drop (k * p.maxFrag) := by
  induction n generalizing k with
  | zero =>
    have hend : payload.length ≤ k * p.maxFrag := by
      rw [← not_lt, ← lt_fragmentCount_iff hM]
      omega
    simpa using hend
  | succ n ih =>
    rw [List.range'_succ, List.map_cons, List.flatten_cons, ih (by omega), fragmentPayload, Nat.succ_mul, ← List.drop_drop,
      List.take_append_drop]

/-- Every fragment but the last is full (R231). -/
theorem fragmentPayload_full (hM : 0 < p.maxFrag) {k : Nat} (hk : k + 1 < payload.length ⌈/⌉ p.maxFrag) :
    (fragmentPayload p payload k).length = p.maxFrag := by
  have hstart := (lt_fragmentCount_iff hM).1 hk
  rw [Nat.succ_mul] at hstart
  rw [fragmentPayload_length]
  omega

/-! Records of the TX commands -/

/-- The frame of R107 and R211 with at most MAXFRAG payload bytes is a well-formed record (R120). -/
theorem frameIs.record_wf {frame : List Byte} {src dst : Word} {ident : Half} {mf : Bool} {off : Nat}
    (h : frameIs p frame src dst proto ident mf off payload) (hmtu : 20 ≤ p.mtu) (hfits : payload.length ≤ p.maxFrag) :
    (Record.tx (addrAt frame 16) frame).wf p := by
  obtain ⟨hlen, -, hb0, hb1, htotal, -, hoff, hflags, httl, -, hcksum, -, -⟩ := h
  have hM : p.maxFrag = p.mtu - 20 := rfl
  have hflags_le : (be16 frame 6).toNat < 0x4000 := by
    rw [hflags]
    split <;> omega
  exact ⟨by omega, by omega, hlen.trans htotal.symm, hb0, hb1, hflags_le, httl, hcksum, rfl⟩

/-- A well-formed TX_OUT record. -/
def Record.txWf (p : Params) (r : Record) : Prop := r.wf p ∧ r.isInbound = false

/-- A frame that BUILD_FRAME emits for at most MAXFRAG bytes is a well-formed TX_OUT record (R210, R211). -/
theorem buildFrame_txWf (hp : p.admitted) (hostIp dst : Word) (proto : Byte) (ident : Half) (mf : Bool) (off : BitVec 13)
    (hfits : payload.length ≤ p.maxFrag) : (buildFrame p hostIp payload (ipBytes dst) proto ident mf off).txWf p := by
  obtain ⟨hmin, hmax, -⟩ := hp
  have hM : p.maxFrag = p.mtu - 20 := rfl
  obtain ⟨frame, hrecord, hframe⟩ := buildFrame_spec p hostIp payload dst proto ident mf off (by omega)
  rw [hrecord]
  exact ⟨hframe.record_wf (by omega) hfits, rfl⟩

/-- Everything a TX_SEND of this hardware can do: at most 8192 well-formed frames, ID_NEXT counted, TX_SENT (R230, R240). -/
theorem txSend_emits (hp : p.admitted) (hlen : len ≤ 65535) (e : txSend p proto len s = .next t) :
    ∃ frames, t = s.completeSend frames ∧ frames.length ≤ 8192 ∧ ∀ r ∈ frames, r.txWf p := by
  have hM : 8 ≤ p.maxFrag := Nat.le_sub_of_add_le hp.1
  rcases txSend_cases_written (by omega) e with ⟨-, rfl⟩ | ⟨payload, -, hpl, rfl⟩
  · have hempty : (sendFrame p s proto [] false 0).txWf p := buildFrame_txWf hp _ _ _ _ _ _ (Nat.zero_le _)
    refine ⟨_, rfl, ?_⟩
    unfold zeroLenFrames
    split
    · exact ⟨by simp, by simpa using hempty⟩
    · exact ⟨by decide, by simp⟩
  · refine ⟨_, rfl, ?_, fun r hr => ?_⟩
    · rw [List.length_map, List.length_range, ceilDiv_le_iff_le_mul (by omega)]
      omega
    · obtain ⟨k, -, rfl⟩ := List.mem_map.1 hr
      exact buildFrame_txWf hp _ _ _ _ _ _ (by rw [fragmentPayload_length]; omega)

/-- Everything a TX_BUILD can do: the length rejection, or one well-formed frame (R212, R213). -/
theorem txBuild_emits {mf : Bool} (hp : p.admitted) (e : txBuild p mf proto len s = .next t) :
    t = s.reject ∨ ∃ r, t = (s.emit r).finish .txBuilt 1 ∧ r.txWf p := by
  rcases txBuild_cases e with ⟨-, rfl⟩ | ⟨hlen, payload, hread, rfl⟩
  · exact .inl rfl
  · exact .inr ⟨_, rfl, buildFrame_txWf hp _ _ _ _ _ _ (by rw [Memory.readRange_length hread]; exact hlen)⟩

/-! This hardware's P_MTU -/

/-- The parameters of this hardware are an IPV4CORE's (R8). -/
theorem admitted_ipv4core : Config.ipv4core.admitted := by decide

theorem maxFrag_ipv4core_pos : 0 < Config.ipv4core.maxFrag := by decide

/-- The payload bytes in the frames before fragment `k`, all of them full (R231, R235). -/
theorem sum_payload_lengths {frames : List (List Byte)} {M k : Nat}
    (hfull : ∀ j, ∀ h : j + 1 < frames.length, (frames[j]).length = 20 + M) (hk : k < frames.length) :
    ((frames.take k).map fun frame => frame.length - 20).sum = k * M := by
  have hall : ∀ n ∈ (frames.take k).map fun frame => frame.length - 20, n = M := by
    intro n hn
    obtain ⟨frame, hframe, rfl⟩ := List.mem_map.1 hn
    obtain ⟨j, hj, rfl⟩ := List.mem_take_iff_getElem.1 hframe
    rw [hfull j (by omega)]
    omega
  rw [List.sum_eq_card_nsmul _ M hall, List.length_map, List.length_take_of_le hk.le, smul_eq_mul]

/-! The obligations -/

/-- Settles O36: the loop faults on an unwritten payload byte, and its reads stay inside the payload. -/
theorem sendReadsExactlyItsPayload : Obligations.SendReadsExactlyItsPayload := by
  intro proto len s
  refine ⟨fun a ha hread => txSend_unwritten maxFrag_ipv4core_pos ha hread, fun m t hm e => ⟨?_, txSend_congr_txbuf hm e⟩⟩
  rcases txSend_cases e with ⟨-, rfl⟩ | ⟨-, _, -, rfl⟩ <;> rfl

/-- Settles O35: the frame of fragment `k` is 20 bytes and the fragment, and the fragments cut the payload at the multiples of
MAXFRAG. -/
theorem fragmentsReassembleToPayload : Obligations.FragmentsReassembleToPayload := by
  intro p proto s payload hp hpos hlen hheld
  obtain ⟨hmin, hmax, hmod⟩ := hp
  have hM : p.maxFrag = p.mtu - 20 := rfl
  obtain ⟨frames, hcount, hsend, hframes⟩ := txSend_emits_fragments ⟨hmin, hmax, hmod⟩ proto hheld hpos hlen
  have hlength : ∀ k, ∀ h : k < frames.length, (frames[k]).length = 20 + (fragmentPayload p payload k).length :=
    fun k h => (hframes k h).1
  have hdrop : ∀ k, ∀ h : k < frames.length, (frames[k]).drop 20 = fragmentPayload p payload k :=
    fun k h => (hframes k h).2.1
  have hfull : ∀ k, ∀ h : k + 1 < frames.length, (frames[k]).length = 20 + p.maxFrag := fun k h => by
    rw [hlength k (by omega), fragmentPayload_full (by omega) (hcount ▸ h)]
  have hjoin : frames.map (fun frame => frame.drop 20)
      = (List.range' 0 (payload.length ⌈/⌉ p.maxFrag)).map (fragmentPayload p payload) := by
    refine List.ext_getElem (by simp [hcount]) fun k h _ => ?_
    simpa using hdrop k (by simpa using h)
  refine ⟨frames, _, hsend, rfl, ?_, fun k h => ?_, fun k h => ?_⟩
  · rw [hjoin, fragmentPayload_flatten (by omega) (Nat.zero_add _), Nat.zero_mul, List.drop_zero]
  · rw [List.length_drop, hfull k h]
    omega
  · have hstart : k * p.maxFrag < payload.length := (lt_fragmentCount_iff (by omega)).1 (hcount ▸ h)
    have hsize := fragmentPayload_length p payload k
    have hoffset : k * p.maxFrag / 8 = k * (p.maxFrag / 8) :=
      Nat.mul_div_assoc k (Nat.dvd_of_mod_eq_zero (by rw [hM]; exact hmod))
    rw [sum_payload_lengths hfull h, hoffset, hdrop k h, hlength k h]
    exact ⟨by omega, by omega, hframes k h⟩

end Sys2Proof.Machine
end

section
/-! PROOF. Everything an instruction can do (R80, R260, R261, R266): an access that starts no command, or one of the three commands.
The rules for the whole machine that follow from it: the trace grows, ID_NEXT counts, and an instruction stops at an unwritten
byte only. -/

namespace Sys2Proof.Machine

variable {p : Params} {s t : State} {i : Instr}

/-! The outcomes of an instruction -/

/-- What a CFG transaction that starts no command can leave (R260 to R266). -/
inductive State.Accessed (s : State) : State → Prop
  | read (w : Word) : s.Accessed (s.respond w)
  | readError (w : Word) : s.Accessed (s.busErr.respond w)
  | writeError : s.Accessed s.busErr
  | illegalCommand : s.Accessed s.reject
  | rxStore (off : Nat) (wdata : Word) (strb : BitVec 4) (h : off + 3 < bufferBytes) :
    s.Accessed { s with rxbuf := s.rxbuf.writeStrobed off wdata strb }
  | txStore (off : Nat) (wdata : Word) (strb : BitVec 4) (h : off + 3 < bufferBytes) :
    s.Accessed { s with txbuf := s.txbuf.writeStrobed off wdata strb }
  | ctrl (b : Bool) : s.Accessed { s with ctrlReg := s.ctrlReg || b }
  | hostIp (w : Word) : s.Accessed { s with hostIp := w }
  | txDst (w : Word) : s.Accessed { s with txDst := w }
  | buildArg (a : BuildArg) : s.Accessed { s with buildArg := a }

/-- The three commands (R110). -/
def Instr.isCommand : Instr → Bool
  | .cfgRead _ _ => false
  | .cfgWrite _ _ _ => false
  | .rxFrame _ => true
  | .txSend _ _ => true
  | .txBuild _ _ _ => true

/-- CFG_READ starts no command (R260). -/
theorem cfgRead_accessed {addr : CfgAddr} (e : cfgRead p addr s = .next t) : s.Accessed t := by
  rcases cfgRead_cases e with ⟨-, rfl⟩ | ⟨_, _, -, rfl⟩ | ⟨_, -, rfl⟩
  · exact .readError 0
  · exact .read _
  · exact .read _

/-- A word written to CMD is illegal, or it is a command's and runs the command (R266). -/
theorem executeCommand_eq (w : Word) (s : State) :
    (∃ c, Instr.isCommand c = true ∧ isCommandWord w = true ∧ executeCommand Config.ipv4core w s = exec c s)
      ∨ executeCommand Config.ipv4core w s = .next s.reject := by
  rcases executeCommand_cases Config.ipv4core w s with ⟨len, rfl, h⟩ | ⟨proto, len, rfl, h⟩ | ⟨mf, proto, len, rfl, h⟩ | ⟨_, -, h⟩
  · exact .inl ⟨.rxFrame len, rfl, (isCommandWord_iff_decodes _).2 ⟨_, decodeCommand_rxFrameWord len⟩, h⟩
  · exact .inl ⟨.txSend proto len, rfl, (isCommandWord_iff_decodes _).2 ⟨_, decodeCommand_txSendWord proto len⟩, h⟩
  · exact .inl ⟨.txBuild mf proto len, rfl, (isCommandWord_iff_decodes _).2 ⟨_, decodeCommand_txBuildWord mf proto len⟩, h⟩
  · exact .inr h

/-- CFG_WRITE starts no command, or it is a full-word write of a command word to CMD, which is ill-formed, and runs the command
(R261, R266). -/
theorem cfgWrite_cases_command {strb : BitVec 4} {addr : CfgAddr} {wdata : Word}
    (e : exec (.cfgWrite strb addr wdata) s = .next t) :
    s.Accessed t ∨ ((Instr.cfgWrite strb addr wdata).wellFormed = false
      ∧ ∃ c, Instr.isCommand c = true ∧ exec c s = .next t) := by
  rcases cfgWrite_cases e with rfl | ⟨_, ht, rfl⟩ | ⟨_, ht, rfl⟩ | ⟨-, -, rfl⟩ | ⟨-, -, rfl⟩ | ⟨-, -, rfl⟩ | ⟨-, -, rfl⟩
    | ⟨rfl, rfl, ecmd⟩
  · exact .inl .writeError
  · exact .inl (.rxStore _ _ _ (targetOf_eq_rxWindow ht).2)
  · exact .inl (.txStore _ _ _ (targetOf_eq_txWindow ht).2)
  · exact .inl (.ctrl _)
  · exact .inl (.hostIp _)
  · exact .inl (.txDst _)
  · exact .inl (.buildArg _)
  · rcases executeCommand_eq wdata s with ⟨c, hc, hword, h⟩ | h <;> rw [h] at ecmd
    · exact .inr ⟨by simp [Instr.wellFormed, hword, regAddr, cmdAddr], c, hc, ecmd⟩
    · cases ecmd
      exact .inl .illegalCommand

/-- Everything an instruction can do: an access, or a command, which a well-formed instruction then is itself. -/
theorem exec_cases (e : exec i s = .next t) :
    s.Accessed t ∨ ∃ c, Instr.isCommand c = true ∧ exec c s = .next t ∧ (i.wellFormed = true → i = c) := by
  cases i with
  | cfgRead strb addr => exact .inl (cfgRead_accessed e)
  | cfgWrite strb addr wdata =>
    refine (cfgWrite_cases_command e).imp_right fun ⟨hill, c, hc, e⟩ => ⟨c, hc, e, fun hwf => ?_⟩
    rw [hill] at hwf
    cases hwf
  | rxFrame len => exact .inr ⟨_, rfl, e, fun _ => rfl⟩
  | txSend proto len => exact .inr ⟨_, rfl, e, fun _ => rfl⟩
  | txBuild mf proto len => exact .inr ⟨_, rfl, e, fun _ => rfl⟩

/-- A relation that holds across every access and every command holds across every instruction. -/
theorem exec_related {R : State → State → Prop} (haccess : ∀ {t}, s.Accessed t → R s t)
    (hrx : ∀ {n t}, rxFrame Config.ipv4core n s = .next t → R s t)
    (hsend : ∀ {proto len t}, len ≤ 65535 → txSend Config.ipv4core proto len s = .next t → R s t)
    (hbuild : ∀ {mf proto len t}, txBuild Config.ipv4core mf proto len s = .next t → R s t)
    (e : exec i s = .next t) : R s t := by
  rcases exec_cases e with haccessed | ⟨c, hc, e, -⟩
  · exact haccess haccessed
  · cases c with
    | cfgRead strb addr => cases hc
    | cfgWrite strb addr wdata => cases hc
    | rxFrame len => exact hrx e
    | txSend proto len => exact hsend (Nat.le_of_lt_succ len.isLt) e
    | txBuild mf proto len => exact hbuild e

/-! The trace -/

theorem State.Accessed.trace (h : s.Accessed t) : t.trace = s.trace := by
  cases h <;> rfl

/-- RX_FRAME appends to the trace (R51). -/
theorem rxFrame_trace_grows {n : Nat} (e : rxFrame p n s = .next t) : s.trace <+: t.trace := by
  rcases rxFrame_outcomes e with ⟨-, rfl⟩ | ⟨-, ⟨_, -, rfl⟩ | rfl | ⟨_, _, -, -, -, ⟨-, rfl⟩ | ⟨-, rfl⟩⟩⟩ <;> simp [rxNotify_eq]

/-- TX_SEND appends to the trace (R51). -/
theorem txSend_trace_grows {proto : Byte} {len : Nat} (e : txSend p proto len s = .next t) : s.trace <+: t.trace := by
  rcases txSend_cases e with ⟨-, rfl⟩ | ⟨-, _, -, rfl⟩ <;> exact List.prefix_append _ _

/-- TX_BUILD appends to the trace (R51). -/
theorem txBuild_trace_grows {mf : Bool} {proto : Byte} {len : Nat} (e : txBuild p mf proto len s = .next t) :
    s.trace <+: t.trace := by
  rcases txBuild_cases e with ⟨-, rfl⟩ | ⟨-, _, -, rfl⟩
  · exact List.prefix_rfl
  · exact List.prefix_append _ _

/-- No instruction removes or reorders a record (R51, R84). -/
theorem exec_trace_grows (e : exec i s = .next t) : s.trace <+: t.trace :=
  exec_related (R := fun s t => s.trace <+: t.trace) (fun h => h.trace ▸ List.prefix_rfl) rxFrame_trace_grows
    (fun _ => txSend_trace_grows) txBuild_trace_grows e

/-! ID_NEXT -/

theorem State.Accessed.idNext (h : s.Accessed t) : t.idNext = s.idNext := by
  cases h <;> rfl

/-- A well-formed instruction other than TX_SEND keeps ID_NEXT (R42). -/
theorem exec_keeps_idNext (hwf : i.wellFormed = true) (hi : ∀ proto len, i ≠ .txSend proto len) (e : exec i s = .next t) :
    t.idNext = s.idNext := by
  rcases exec_cases e with haccessed | ⟨c, hc, e, hic⟩
  · exact haccessed.idNext
  · obtain rfl := hic hwf
    cases i with
    | cfgRead strb addr => cases hc
    | cfgWrite strb addr wdata => cases hc
    | rxFrame len => exact (rxFrame_status_idNext e).2
    | txSend proto len => exact absurd rfl (hi proto len)
    | txBuild mf proto len => exact (txBuild_status_idNext e).2

/-! Completion and UNDEF_READ -/

/-- The operation completes, or it is UNDEF_READ, which needs `P`. -/
def Effect.CompletesUnless (P : Prop) (e : Effect) : Prop := (∃ t, e = .next t) ∨ (e = .fault .undefRead ∧ P)

theorem Effect.completesUnless_next {P : Prop} (t : State) : Effect.CompletesUnless P (.next t) := .inl ⟨t, rfl⟩

/-- Some byte of a buffer is unwritten (R90). -/
def State.hasUnwritten (s : State) : Prop := ∃ a < 65536, s.rxbuf.read a = none ∨ s.txbuf.read a = none

/-- Going on with bytes completes where what follows does, unless one of the bytes is unwritten. -/
theorem withBytes_completes {P : Prop} {m : Memory} {n : Nat} {k : List Byte → Effect} (hm : ∀ a < n, m.read a = none → P)
    (hk : ∀ b, Effect.CompletesUnless P (k b)) : Effect.CompletesUnless P (withBytes m 0 n k) := by
  cases hr : m.readRange 0 n with
  | none =>
    obtain ⟨a, ha, hnone⟩ := Memory.readRange_zero_eq_none_iff.1 hr
    exact .inr ⟨withBytes_of_none hr k, hm a ha hnone⟩
  | some b => rw [withBytes_of_some hr]; exact hk b

theorem State.hasUnwritten_of_rx {n a : Nat} (hn : n ≤ 65536) (ha : a < n) (h : s.rxbuf.read a = none) : s.hasUnwritten :=
  ⟨a, by omega, .inl h⟩

theorem State.hasUnwritten_of_tx {n a : Nat} (hn : n ≤ 65536) (ha : a < n) (h : s.txbuf.read a = none) : s.hasUnwritten :=
  ⟨a, by omega, .inr h⟩

/-- A header has at most 60 bytes (R106). -/
theorem InboundHeader.headerLen_le (h : InboundHeader) : h.headerLen ≤ 60 := by
  have := h.ihl.isLt
  unfold InboundHeader.headerLen
  omega

/-- A declared datagram has at most 65535 bytes (R106). -/
theorem InboundHeader.datagramLen_le (h : InboundHeader) : h.datagramLen ≤ 65535 := Nat.le_of_lt_succ h.totalLength.isLt

theorem rxDestination_completes (h : InboundHeader) : Effect.CompletesUnless s.hasUnwritten (rxDestination p h s) := by
  unfold rxDestination
  split
  · refine withBytes_completes (fun a => State.hasUnwritten_of_rx (by have := h.datagramLen_le; omega)) fun d => ?_
    split <;> exact Effect.completesUnless_next _
  · exact Effect.completesUnless_next _

/-- RX_FRAME completes unless RXBUF has an unwritten byte (R191, R302). -/
theorem rxFrame_completes (n : Nat) : Effect.CompletesUnless s.hasUnwritten (rxFrame p n s) := by
  unfold rxFrame
  split
  · split
    · exact Effect.completesUnless_next _
    · refine withBytes_completes (fun a => State.hasUnwritten_of_rx (by decide)) fun first => ?_
      split
      · exact Effect.completesUnless_next _
      · split
        · exact Effect.completesUnless_next _
        · refine withBytes_completes
            (fun a => State.hasUnwritten_of_rx (by have := (parseHeader first).headerLen_le; omega)) fun header => ?_
          split
          · exact rxDestination_completes _
          · exact Effect.completesUnless_next _
  · exact Effect.completesUnless_next _

/-- TX_SEND completes unless TXBUF has an unwritten byte (R239, R302). -/
theorem txSend_completesUnless (hM : 0 < p.maxFrag) {len : Nat} (hlen : len ≤ 65535) (proto : Byte) :
    Effect.CompletesUnless s.hasUnwritten (txSend p proto len s) := by
  by_cases hread : ∃ a < len, s.txbuf.read a = none
  · obtain ⟨a, ha, hnone⟩ := hread
    exact .inr ⟨txSend_unwritten hM ha hnone, State.hasUnwritten_of_tx (by omega) ha hnone⟩
  · exact .inl (txSend_completes hM fun a ha hnone => hread ⟨a, ha, hnone⟩)

/-- TX_BUILD completes unless TXBUF has an unwritten byte (R214, R302). -/
theorem txBuild_completes {len : Nat} (hlen : len ≤ 65535) (mf : Bool) (proto : Byte) :
    Effect.CompletesUnless s.hasUnwritten (txBuild p mf proto len s) := by
  unfold txBuild
  split
  · exact Effect.completesUnless_next _
  · exact withBytes_completes (fun a => State.hasUnwritten_of_tx (by omega)) fun _ => Effect.completesUnless_next _

/-- The read of a buffer word completes unless one of its bytes is unwritten (R264, R302). -/
theorem readBufferWord_completes {P : Prop} {m : Memory} {off : Nat} (hm : ∀ k < 4, m.read (off + k) = none → P) :
    Effect.CompletesUnless P (readBufferWord m off s) := by
  unfold readBufferWord
  split
  · next hnone =>
    refine .inr ⟨rfl, ?_⟩
    rcases Memory.readWord_eq_none_iff.1 hnone with h | h | h | h
    · exact hm 0 (by decide) h
    · exact hm 1 (by decide) h
    · exact hm 2 (by decide) h
    · exact hm 3 (by decide) h
  · exact Effect.completesUnless_next _

/-- CFG_READ completes unless a buffer has an unwritten byte (R264, R302). -/
theorem cfgRead_completes (addr : CfgAddr) : Effect.CompletesUnless s.hasUnwritten (cfgRead p addr s) := by
  unfold cfgRead
  split
  · exact Effect.completesUnless_next _
  · next off ht =>
    have hoff : off + 3 < 65536 := (targetOf_eq_rxWindow ht).2
    exact readBufferWord_completes fun k hk => State.hasUnwritten_of_rx (n := off + 4) (by omega) (by omega)
  · next off ht =>
    have hoff : off + 3 < 65536 := (targetOf_eq_txWindow ht).2
    exact readBufferWord_completes fun k hk => State.hasUnwritten_of_tx (n := off + 4) (by omega) (by omega)
  · exact Effect.completesUnless_next _
  · exact Effect.completesUnless_next _

/-- A command completes unless a buffer has an unwritten byte. -/
theorem exec_command_completes (hi : Instr.isCommand i = true) : Effect.CompletesUnless s.hasUnwritten (exec i s) := by
  cases i with
  | cfgRead strb addr => cases hi
  | cfgWrite strb addr wdata => cases hi
  | rxFrame len => exact rxFrame_completes _
  | txSend proto len => exact txSend_completesUnless maxFrag_ipv4core_pos (Nat.le_of_lt_succ len.isLt) proto
  | txBuild mf proto len => exact txBuild_completes (Nat.le_of_lt_succ len.isLt) mf proto

/-- A CFG_WRITE completes, unless it runs a command and a buffer has an unwritten byte (R261, R266). -/
theorem cfgWrite_completes (strb : BitVec 4) (addr : CfgAddr) (wdata : Word) :
    Effect.CompletesUnless s.hasUnwritten (cfgWrite Config.ipv4core strb addr wdata s) := by
  unfold cfgWrite
  split
  · exact Effect.completesUnless_next _
  · exact Effect.completesUnless_next _
  · exact Effect.completesUnless_next _
  · next r _ =>
    split
    · cases r with
      | cmd =>
        rcases executeCommand_eq wdata s with ⟨c, hc, -, h⟩ | h <;> simp only [writeReg, h]
        · exact exec_command_completes hc
        · exact Effect.completesUnless_next _
      | _ => exact Effect.completesUnless_next _
    · exact Effect.completesUnless_next _
  · exact Effect.completesUnless_next _

/-- Every instruction completes, unless a buffer has an unwritten byte (R83, R302). -/
theorem exec_completes (i : Instr) (s : State) : Effect.CompletesUnless s.hasUnwritten (exec i s) := by
  cases i with
  | cfgRead strb addr => exact cfgRead_completes addr
  | cfgWrite strb addr wdata => exact cfgWrite_completes strb addr wdata
  | rxFrame len => exact exec_command_completes rfl
  | txSend proto len => exact exec_command_completes rfl
  | txBuild mf proto len => exact exec_command_completes rfl

/-! The obligations -/

/-- Settles O46: an access keeps the trace, and each of the three commands appends to it. -/
theorem traceOnlyGrows : Obligations.TraceOnlyGrows := ⟨fun _ _ _ => exec_trace_grows, rfl⟩

/-- Settles O47: of the two ends of an instruction one is a next state and the other UNDEF_READ at an unwritten byte. -/
theorem onlyUnwrittenBytesFault : Obligations.OnlyUnwrittenBytesFault := by
  intro i s
  rcases exec_completes i s with ⟨t, ht⟩ | ⟨hfault, hunwritten⟩
  · rw [ht]
    exact ⟨nofun, nofun⟩
  · rw [hfault]
    exact ⟨nofun, fun _ => hunwritten⟩

/-- Settles O48: with every byte written no instruction ends in UNDEF_READ. -/
theorem writtenBuffersAlwaysComplete : Obligations.WrittenBuffersAlwaysComplete := by
  intro i s hwritten
  rcases exec_completes i s with hnext | ⟨-, a, ha, hrx | htx⟩
  · exact hnext
  · exact absurd hrx (hwritten a ha).1
  · exact absurd htx (hwritten a ha).2

/-- Settles O45: the decoder answers well-formed instructions, of which TX_SEND alone moves ID_NEXT; an idle step moves nothing. -/
theorem identificationCountsSends : Obligations.IdentificationCountsSends := by
  intro s t e hreset
  rcases step_cases e with ⟨hhost, rfl⟩ | ⟨rest, hhost, -⟩ | ⟨request, wdata, rest, hhost, e⟩
  · simp [hhost]
  · simp [hhost] at hreset
  · refine ⟨?_, fun hother => ?_⟩
    · rintro ⟨request', wdata', rest', proto, len, hhost', hdecode⟩
      cases hhost.symm.trans hhost'
      rw [hdecode] at e
      rw [(txSend_status_idNext e).2]
      exact BitVec.toNat_add _ _
    · exact exec_keeps_idNext (s := { s with host := rest }) (decodeRequest_wellFormed request wdata)
        (fun proto len hdecode => hother ⟨request, wdata, rest, proto, len, hhost, hdecode⟩) e

end Sys2Proof.Machine
end

section
/-! PROOF. RX_FRAME on two states (R180 to R192): its ends as operations on the state, which end it takes as a function of
CTRL.REG, HOST_IP and the bytes it reads, and where it is UNDEF_READ. -/

namespace Sys2Proof.Machine

variable {p : Params} {s s' t : State} {n : Nat} {h : InboundHeader}

/-! The ends of RX_FRAME -/

/-- The ends of RX_FRAME, with the header and the datagram where records are emitted (R170). -/
inductive RxEnd where
  | rejected
  | dropped (code : ResultCode)
  | overrun
  | underflow (h : InboundHeader) (datagram : List Byte)
  | dispatched (h : InboundHeader) (datagram : List Byte)

/-- The state that an end leaves. -/
def RxEnd.leaves (p : Params) (s : State) : RxEnd → State
  | .rejected => s.reject
  | .dropped code => s.finish code 0
  | .overrun => s.raiseFault .hdrOverrun
  | .underflow h d => (rxNotify p h d s).raiseFault .stripUnderflow
  | .dispatched h d => ((rxNotify p h d s).emit (.disp h.proto h.src (d.drop h.headerLen))).finish (rxDoneCode p h) 0

/-- The records that step 6 appends (R182). -/
def rxNotices (p : Params) (h : InboundHeader) (datagram : List Byte) : List Record :=
  if supportedProto p h.proto then [] else [.icmp h.src p.icmpCodeProtoUnreach datagram]

/-- The records that an end appends. -/
def RxEnd.records (p : Params) : RxEnd → List Record
  | .rejected => []
  | .dropped _ => []
  | .overrun => []
  | .underflow h d => rxNotices p h d
  | .dispatched h d => rxNotices p h d ++ [.disp h.proto h.src (d.drop h.headerLen)]

/-- The STATUS that an end leaves. -/
def RxEnd.status (f : Status) : RxEnd → Status
  | .rejected => f.setCmdErr
  | .dropped _ => f
  | .overrun => f.setFault .hdrOverrun
  | .underflow _ _ => f.setFault .stripUnderflow
  | .dispatched _ _ => f

/-- The RESULT that an end leaves, COUNT always 0 (R38). -/
def RxEnd.result (p : Params) : RxEnd → Result
  | .rejected => { code := .cmdRejected, count := 0 }
  | .dropped code => { code := code, count := 0 }
  | .overrun => { code := .faultHdrOverrun, count := 0 }
  | .underflow _ _ => { code := .faultStripUnderflow, count := 0 }
  | .dispatched h _ => { code := rxDoneCode p h, count := 0 }

/-- Every end appends records and writes STATUS and RESULT, and nothing else (R91, R170). -/
theorem RxEnd.leaves_eq (p : Params) (s : State) (x : RxEnd) :
    x.leaves p s = { s with trace := s.trace ++ x.records p, status := x.status s.status, result := x.result p } := by
  cases x with
  | rejected => simp only [RxEnd.leaves, RxEnd.records, List.append_nil]; rfl
  | dropped code => simp only [RxEnd.leaves, RxEnd.records, List.append_nil]; rfl
  | overrun => simp only [RxEnd.leaves, RxEnd.records, List.append_nil]; rfl
  | underflow h d => rw [RxEnd.leaves, rxNotify_eq]; rfl
  | dispatched h d =>
    rw [RxEnd.leaves, rxNotify_eq]
    simp only [RxEnd.records, ← List.append_assoc]
    rfl

/-- STATUS bits are sticky, so the same end again leaves STATUS as it is (R37). -/
theorem RxEnd.status_status (x : RxEnd) (f : Status) : x.status (x.status f) = x.status f := by
  cases x <;> rfl

/-- The same end again appends the same records and changes nothing else (R192). -/
theorem RxEnd.leaves_leaves (p : Params) (s : State) (x : RxEnd) :
    x.leaves p (x.leaves p s) = { x.leaves p s with trace := (x.leaves p s).trace ++ x.records p } := by
  rw [RxEnd.leaves_eq p s, RxEnd.leaves_eq, RxEnd.status_status]

/-! Two runs that read alike -/

/-- Both operations stop with the same fault, or RX_FRAME takes the same end from both states. -/
def Effect.SameEnd (p : Params) (s s' : State) (e e' : Effect) : Prop :=
  (e = .fault .undefRead ∧ e' = .fault .undefRead) ∨ ∃ x : RxEnd, e = .next (x.leaves p s) ∧ e' = .next (x.leaves p s')

theorem Effect.sameEnd_next (x : RxEnd) :
    Effect.SameEnd p s s' (.next (x.leaves p s)) (.next (x.leaves p s')) := .inr ⟨x, rfl, rfl⟩

/-- Ranges that read alike, followed by operations that end alike. -/
theorem withBytes_sameEnd {m m' : Memory} {off : Nat} {k k' : List Byte → Effect} (hm : m'.readRange off n = m.readRange off n)
    (hk : ∀ b, m.readRange off n = some b → Effect.SameEnd p s s' (k b) (k' b)) :
    Effect.SameEnd p s s' (withBytes m off n k) (withBytes m' off n k') := by
  cases hr : m.readRange off n with
  | none => exact .inl ⟨withBytes_of_none hr k, withBytes_of_none (hm.trans hr) k'⟩
  | some b =>
    rw [withBytes_of_some hr, withBytes_of_some (hm.trans hr)]
    exact hk b hr

/-- Steps 5 to 7 read the declared datagram alone (R180). -/
theorem rxDeliver_sameEnd (hd : s'.rxbuf.readRange 0 h.datagramLen = s.rxbuf.readRange 0 h.datagramLen) :
    Effect.SameEnd p s s' (rxDeliver p h s) (rxDeliver p h s') := by
  refine withBytes_sameEnd hd fun d _ => ?_
  split
  · exact Effect.sameEnd_next (.underflow h d)
  · exact Effect.sameEnd_next (.dispatched h d)

/-- Step 4 compares with HOST_IP (R179). -/
theorem rxDestination_sameEnd (hip : s'.hostIp = s.hostIp)
    (hd : s'.rxbuf.readRange 0 h.datagramLen = s.rxbuf.readRange 0 h.datagramLen) :
    Effect.SameEnd p s s' (rxDestination p h s) (rxDestination p h s') := by
  unfold rxDestination
  rw [hip]
  split
  · exact rxDeliver_sameEnd hd
  · exact Effect.sameEnd_next (.dropped .rxDropDest)

/-- Step 3 reads the header (R178). -/
theorem rxChecksum_sameEnd (hip : s'.hostIp = s.hostIp)
    (hh : s'.rxbuf.readRange 0 h.headerLen = s.rxbuf.readRange 0 h.headerLen)
    (hd : s'.rxbuf.readRange 0 h.datagramLen = s.rxbuf.readRange 0 h.datagramLen) :
    Effect.SameEnd p s s' (rxChecksum p h s) (rxChecksum p h s') := by
  refine withBytes_sameEnd hh fun header _ => ?_
  split
  · exact rxDestination_sameEnd hip hd
  · exact Effect.sameEnd_next (.dropped .rxDropChecksum)

/-- Everything an RX_FRAME of LEN `n` reads is the same in both states (R180, R191). -/
structure State.RxAlike (n : Nat) (s s' : State) : Prop where
  ctrlReg : s'.ctrlReg = s.ctrlReg
  hostIp : s'.hostIp = s.hostIp
  first : s'.rxbuf.readRange 0 20 = s.rxbuf.readRange 0 20
  header : ∀ f, s.rxbuf.readRange 0 20 = some f → frameHeaderLen f ≤ n →
    s'.rxbuf.readRange 0 (frameHeaderLen f) = s.rxbuf.readRange 0 (frameHeaderLen f)
  datagram : ∀ f, s.rxbuf.readRange 0 20 = some f → frameTotalLen f ≤ n →
    s'.rxbuf.readRange 0 (frameTotalLen f) = s.rxbuf.readRange 0 (frameTotalLen f)

theorem State.RxAlike.of_same (hreg : s'.ctrlReg = s.ctrlReg) (hip : s'.hostIp = s.hostIp) (hbuf : s'.rxbuf = s.rxbuf) :
    State.RxAlike n s s' :=
  ⟨hreg, hip, by rw [hbuf], fun _ _ _ => by rw [hbuf], fun _ _ _ => by rw [hbuf]⟩

/-- RX_FRAME takes the same end on states that are alike in what it reads (R191). -/
theorem rxFrame_sameEnd (ha : State.RxAlike n s s') : Effect.SameEnd p s s' (rxFrame p n s) (rxFrame p n s') := by
  unfold rxFrame
  rw [ha.ctrlReg]
  split
  · split
    · exact Effect.sameEnd_next (.dropped .rxDropShort)
    · refine withBytes_sameEnd ha.first fun f hf => ?_
      split
      · exact Effect.sameEnd_next (.dropped .rxDropHeader)
      · next hinvalid =>
        split
        · exact Effect.sameEnd_next .overrun
        · next hover =>
          obtain ⟨-, -, htotal, -⟩ := (parseHeader_invalid f n).1 (Bool.eq_false_iff.2 hinvalid)
          rw [parseHeader_headerLen] at hover
          refine rxChecksum_sameEnd ha.hostIp ?_ ?_
          · rw [parseHeader_headerLen]; exact ha.header f hf (Nat.le_of_not_lt hover)
          · rw [parseHeader_datagramLen]; exact ha.datagram f hf htotal
  · exact Effect.sameEnd_next .rejected

/-- An RX_FRAME that completes takes an end, and the same one on every state alike in what it reads. -/
theorem rxFrame_end_of_next (ha : State.RxAlike n s s') (e : rxFrame p n s = .next t) :
    ∃ x : RxEnd, t = x.leaves p s ∧ rxFrame p n s' = .next (x.leaves p s') := by
  rcases rxFrame_sameEnd (p := p) ha with ⟨hfault, -⟩ | ⟨x, hx, hx'⟩
  · rw [hfault] at e
    cases e
  · rw [hx] at e
    cases e
    exact ⟨x, rfl, hx'⟩

/-- An RX_FRAME that completes takes one of the ends. -/
theorem rxFrame_leaves (e : rxFrame p n s = .next t) : ∃ x : RxEnd, t = x.leaves p s := by
  obtain ⟨x, hx, -⟩ := rxFrame_end_of_next (State.RxAlike.of_same rfl rfl rfl : State.RxAlike n s s) e
  exact ⟨x, hx⟩

/-- An RX_FRAME that faults faults on every state alike in what it reads. -/
theorem rxFrame_fault_of_fault {r : Fault} (ha : State.RxAlike n s s') (e : rxFrame p n s = .fault r) :
    rxFrame p n s' = .fault r := by
  rcases rxFrame_sameEnd (p := p) ha with ⟨hfault, hfault'⟩ | ⟨x, hx, -⟩
  · rw [hfault] at e
    cases e
    exact hfault'
  · rw [hx] at e
    cases e

/-! Where RX_FRAME is UNDEF_READ -/

/-- Step 2 is UNDEF_READ exactly where one of the first 20 bytes is unwritten, or where it passes and step 3 or step 5 meets an
unwritten byte (R191). -/
theorem rxHeader_eq_fault_iff : rxHeader p n s = .fault .undefRead ↔
    (∃ a < 20, s.rxbuf.read a = none)
      ∨ ∃ f, s.rxbuf.readRange 0 20 = some f ∧ frameHeaderValid f n ∧ frameHeaderLen f ≤ n
        ∧ rxChecksum p (parseHeader f) s = .fault .undefRead := by
  rw [← Memory.readRange_zero_eq_none_iff]
  cases hr : s.rxbuf.readRange 0 20 with
  | none => simp [rxHeader, withBytes_of_none hr]
  | some f =>
    simp only [rxHeader, withBytes_of_some hr, reduceCtorEq, Option.some.injEq, exists_eq_left', false_or]
    by_cases hv : frameHeaderValid f n
    · rw [(parseHeader_invalid f n).2 hv, if_neg Bool.false_ne_true, parseHeader_headerLen]
      by_cases hover : n < frameHeaderLen f
      · simp [hover]
      · rw [if_neg hover]
        exact ⟨fun hfault => ⟨hv, Nat.le_of_not_lt hover, hfault⟩, fun ⟨_, _, hfault⟩ => hfault⟩
    · rw [if_pos ((parseHeader_invalid_iff f n).2 hv)]
      exact ⟨nofun, fun ⟨hvalid, _⟩ => absurd hvalid hv⟩

/-- RX_FRAME is UNDEF_READ exactly where it is registered, LEN reaches 20, and step 2 is (R171, R172). -/
theorem rxFrame_eq_fault_iff :
    rxFrame p n s = .fault .undefRead ↔ s.ctrlReg = true ∧ 20 ≤ n ∧ rxHeader p n s = .fault .undefRead := by
  unfold rxFrame
  split
  · next hreg =>
    split
    · next hn => exact ⟨nofun, fun ⟨_, hle, _⟩ => absurd hn (Nat.not_lt.2 hle)⟩
    · next hn => exact ⟨fun hfault => ⟨hreg, Nat.le_of_not_lt hn, hfault⟩, fun ⟨_, _, hfault⟩ => hfault⟩
  · next hreg => exact ⟨nofun, fun ⟨htrue, _⟩ => absurd htrue hreg⟩

/-! The obligations -/

/-- Settles O30: what the statement lets differ is outside everything that RX_FRAME reads. -/
theorem receiveReadsOnlyDeclaredBytes : Obligations.ReceiveReadsOnlyDeclaredBytes := by
  intro len s m hfirst hrest
  have ha : State.RxAlike len.toNat s { s with rxbuf := m } :=
    { ctrlReg := rfl
      hostIp := rfl
      first := Memory.readRange_congr fun i hi => hfirst _ (by omega)
      header := fun f hf hle => Memory.readRange_congr fun i hi => hrest f hf _ (.inl ⟨hle, by omega⟩)
      datagram := fun f hf hle => Memory.readRange_congr fun i hi => hrest f hf _ (.inr ⟨hle, by omega⟩) }
  refine ⟨fun t e => ?_, fun r e => rxFrame_fault_of_fault ha e⟩
  obtain ⟨x, rfl, hx⟩ := rxFrame_end_of_next ha e
  rw [exec_rxFrame, hx, RxEnd.leaves_eq, RxEnd.leaves_eq]

/-- Settles O31: the first run leaves CTRL.REG, HOST_IP and RXBUF alone, so the second takes the same end. -/
theorem receiveTwiceEmitsTwice : Obligations.ReceiveTwiceEmitsTwice := by
  intro len s t e
  have hsame : State.RxAlike len.toNat s t := by
    obtain ⟨x, rfl⟩ := rxFrame_leaves e
    rw [RxEnd.leaves_eq]
    exact .of_same rfl rfl rfl
  obtain ⟨x, rfl, hagain⟩ := rxFrame_end_of_next hsame e
  refine ⟨x.records Config.ipv4core, by rw [RxEnd.leaves_eq], ?_⟩
  rw [exec_rxFrame, hagain, RxEnd.leaves_leaves]

/-- Settles O55: the first 20 bytes, the header and the datagram are read in this order, each after the checks before it; where a
range is written, its bytes `f` begin with the ones that the earlier checks saw. -/
theorem receiveFaultsOnUnwrittenByte : Obligations.ReceiveFaultsOnUnwrittenByte := by
  intro len s
  rw [exec_rxFrame]
  refine ⟨fun hr hn a ha hread => ?_, fun f hr hn hf hl hv hh a ha hread => ?_,
    fun f hr hn hf hv hh hl hc hdst a ha hread => ?_, fun hfault => ?_⟩
  · exact rxFrame_eq_fault_iff.2 ⟨hr, hn, rxHeader_eq_fault_iff.2 (.inl ⟨a, ha, hread⟩)⟩
  · rw [rxFrame_to_header hr hn hf hl, (parseHeader_invalid f _).2 hv, if_neg Bool.false_ne_true, if_neg (Nat.not_lt.2 hh),
      rxChecksum_eq_fault_iff, parseHeader_headerLen]
    exact .inl ⟨a, ha, hread⟩
  · rw [rxFrame_to_deliver hr hn hf hv hh hl hc hdst, rxDeliver_eq_fault_iff, parseHeader_datagramLen]
    exact ⟨a, ha, hread⟩
  · obtain ⟨hr, hn, hheader⟩ := rxFrame_eq_fault_iff.1 hfault
    refine ⟨hr, hn, (rxHeader_eq_fault_iff.1 hheader).imp_right ?_⟩
    rintro ⟨f, hf, hv, hh, hchecksum⟩
    have h20 : f.length = 20 := Memory.readRange_length hf
    rw [rxChecksum_eq_fault_iff, parseHeader_headerLen, parseHeader_datagramLen] at hchecksum
    rcases hchecksum with hunwritten | ⟨g, hg, hc, hdst, hunwritten⟩
    · exact ⟨f, by rw [State.rxHolds, h20]; exact hf, h20.ge, hv, hh, .inl hunwritten⟩
    · have hglen : g.length = frameHeaderLen f := Memory.readRange_length hg
      have hhl : 20 ≤ frameHeaderLen f := hv.2.2.2
      have hgf : g.take 20 = f := Option.some.inj ((Memory.readRange_take hg hhl).symm.trans hf)
      have hparse : parseHeader f = parseHeader g := by rw [← hgf, parseHeader_take g (Nat.le_refl _)]
      have hhead : frameHeaderLen f = frameHeaderLen g := by simpa using congrArg InboundHeader.headerLen hparse
      have htotal : frameTotalLen f = frameTotalLen g := by simpa using congrArg InboundHeader.datagramLen hparse
      rw [← parseHeader_invalid, hparse, parseHeader_invalid] at hv
      rw [hparse] at hc hdst
      rw [hhead] at hglen hg hh hc hhl
      rw [htotal] at hunwritten
      exact ⟨g, by rw [State.rxHolds, hglen]; exact hg, by omega, hv, hh,
        .inr ⟨hglen.ge, hc, (parseHeader_dst g _).1 hdst, hunwritten⟩⟩

end Sys2Proof.Machine
end

section
/-! PROOF. The frame and the RESULT of the three commands (R38, R91), and every instruction on a state with another STATUS and
RESULT (R52). -/

namespace Sys2Proof.Machine

variable {p : Params} {s s' t : State} {proto : Byte} {len n : Nat} {mf : Bool}

/-! The frame of a command -/

/-- What every command leaves alone (R91). -/
structure State.CommandFrame (s t : State) : Prop where
  ctrlReg : t.ctrlReg = s.ctrlReg
  hostIp : t.hostIp = s.hostIp
  txDst : t.txDst = s.txDst
  buildArg : t.buildArg = s.buildArg
  responses : t.responses = s.responses
  host : t.host = s.host
  rxbuf : t.rxbuf = s.rxbuf
  txbuf : t.txbuf = s.txbuf
  busErr : t.status.busErr = s.status.busErr

theorem rxFrame_frame (e : rxFrame p n s = .next t) : s.CommandFrame t := by
  obtain ⟨x, rfl⟩ := rxFrame_leaves e
  have hbus : (x.status s.status).busErr = s.status.busErr := by cases x <;> rfl
  rw [RxEnd.leaves_eq]
  exact ⟨rfl, rfl, rfl, rfl, rfl, rfl, rfl, rfl, hbus⟩

theorem txSend_frame (e : txSend p proto len s = .next t) : s.CommandFrame t := by
  rcases txSend_cases e with ⟨-, rfl⟩ | ⟨-, _, -, rfl⟩ <;> exact ⟨rfl, rfl, rfl, rfl, rfl, rfl, rfl, rfl, rfl⟩

theorem txBuild_frame (e : txBuild p mf proto len s = .next t) : s.CommandFrame t := by
  rcases txBuild_cases e with ⟨-, rfl⟩ | ⟨-, _, -, rfl⟩ <;> exact ⟨rfl, rfl, rfl, rfl, rfl, rfl, rfl, rfl, rfl⟩

/-- TX_BUILD changes no STATUS bit but CMD_ERR (R213). -/
theorem txBuild_status (e : txBuild p mf proto len s = .next t) : t.status = { s.status with cmdErr := t.status.cmdErr } := by
  rcases txBuild_cases e with ⟨-, rfl⟩ | ⟨-, _, -, rfl⟩ <;> rfl

/-! RESULT -/

/-- RESULT after RX_FRAME: COUNT 0 and one of its nine codes (R38, R39). -/
theorem rxFrame_result (e : rxFrame p n s = .next t) : t.result.count = 0
    ∧ t.result.code ∈ [ResultCode.rxDispatched, .rxUnreachDispatched, .rxDropShort, .rxDropHeader, .rxDropChecksum, .rxDropDest,
      .faultHdrOverrun, .faultStripUnderflow, .cmdRejected] := by
  rcases rxFrame_outcomes e with ⟨-, rfl⟩ | ⟨-, ⟨c, hc, rfl⟩ | rfl | ⟨f, _, -, -, -, ⟨-, rfl⟩ | ⟨-, rfl⟩⟩⟩
  · exact ⟨rfl, by simp⟩
  · refine ⟨rfl, ?_⟩
    simp only [List.mem_cons, List.not_mem_nil, or_false] at hc
    rcases hc with rfl | rfl | rfl | rfl <;> simp
  · exact ⟨rfl, by simp⟩
  · exact ⟨rfl, by simp⟩
  · refine ⟨rfl, ?_⟩
    cases hs : supportedProto p (parseHeader f).proto with
    | true => simp [rxDoneCode_supported hs]
    | false => simp [rxDoneCode_unsupported hs]

/-- RESULT after TX_SEND: TX_SENT with the number of frames, which its 16 bits hold (R38, R240). -/
theorem txSend_result (hp : p.admitted) (hlen : len ≤ 65535) (e : txSend p proto len s = .next t) :
    t.result.code = .txSent ∧ t.result.count.toNat + s.trace.length = t.trace.length := by
  obtain ⟨frames, rfl, hcount, -⟩ := txSend_emits hp hlen e
  refine ⟨rfl, ?_⟩
  have hfits : (BitVec.ofNat 16 frames.length).toNat = frames.length := Nat.mod_eq_of_lt (by omega)
  rw [State.completeSend_result, State.completeSend_trace, List.length_append, hfits, Nat.add_comm]

/-- RESULT after TX_BUILD: one frame built, or a rejection (R212, R213). -/
theorem txBuild_result (e : txBuild p mf proto len s = .next t) :
    (t.result = { code := .txBuilt, count := 1 } ∧ t.trace.length = s.trace.length + 1)
      ∨ (t.result = { code := .cmdRejected, count := 0 } ∧ t.trace = s.trace) := by
  rcases txBuild_cases e with ⟨-, rfl⟩ | ⟨-, _, -, rfl⟩
  · exact .inr ⟨rfl, rfl⟩
  · exact .inl ⟨rfl, by simp⟩

/-! Another STATUS and RESULT -/

/-- The states differ in STATUS, RESULT and the words read earlier alone, and as many words have been read. -/
abbrev State.HostAlike (t u : State) : Prop :=
  t.sameHostState u ∧ u.host = t.host ∧ u.responses.length = t.responses.length

/-- Both operations stop alike, or both complete and leave the host the same (R52). -/
def Effect.HostAlike (e e' : Effect) : Prop :=
  (e = .fault .undefRead ∧ e' = .fault .undefRead) ∨ ∃ t u : State, e = .next t ∧ e' = .next u ∧ t.HostAlike u

/-- Writing STATUS, RESULT and as many words read is nothing to the rest of the host's state. -/
theorem State.hostAlike_with (t : State) (status : Status) (result : Result) {responses : List Word}
    (hlen : responses.length = t.responses.length) :
    t.HostAlike { t with status := status, result := result, responses := responses } :=
  ⟨⟨rfl, rfl, rfl, rfl, rfl, rfl, rfl, rfl⟩, rfl, hlen⟩

theorem Effect.hostAlike_next {t u : State} (h : t.HostAlike u) : Effect.HostAlike (.next t) (.next u) := .inr ⟨t, u, rfl, rfl, h⟩

/-- The end of RX_FRAME does not depend on STATUS or RESULT (R52). -/
theorem rxFrame_hostAlike (status : Status) (result : Result) :
    Effect.HostAlike (rxFrame p n s) (rxFrame p n { s with status := status, result := result }) := by
  have ha : State.RxAlike n s { s with status := status, result := result } := .of_same rfl rfl rfl
  rcases rxFrame_sameEnd (p := p) ha with hfault | ⟨x, hx, hx'⟩
  · exact .inl hfault
  · rw [hx, hx', RxEnd.leaves_eq, RxEnd.leaves_eq]
    exact Effect.hostAlike_next (State.hostAlike_with _ _ _ rfl)

/-- The frames of TX_SEND do not depend on STATUS or RESULT (R52). -/
theorem txSend_hostAlike (status : Status) (result : Result) :
    Effect.HostAlike (txSend p proto len s) (txSend p proto len { s with status := status, result := result }) := by
  have hloop := sendLoop_congr (p := p) (proto := proto) (len := len) (s' := { s with status := status, result := result })
    (s := s) rfl rfl rfl rfl len 0 0
  unfold txSend
  rw [hloop]
  split
  · exact Effect.hostAlike_next (State.hostAlike_with _ _ _ rfl)
  · split
    · exact .inl ⟨rfl, rfl⟩
    · exact Effect.hostAlike_next (State.hostAlike_with _ _ _ rfl)

/-- TX_BUILD does not depend on STATUS or RESULT (R52). -/
theorem txBuild_hostAlike (status : Status) (result : Result) :
    Effect.HostAlike (txBuild p mf proto len s) (txBuild p mf proto len { s with status := status, result := result }) := by
  unfold txBuild withBytes
  split
  · exact Effect.hostAlike_next (State.hostAlike_with _ _ _ rfl)
  · cases s.txbuf.readRange 0 len with
    | none => exact .inl ⟨rfl, rfl⟩
    | some payload => exact Effect.hostAlike_next (State.hostAlike_with _ _ _ rfl)

/-- A read hands over one word, whatever STATUS and RESULT are (R52, R260). -/
theorem cfgRead_hostAlike (addr : CfgAddr) (status : Status) (result : Result) :
    Effect.HostAlike (cfgRead p addr s) (cfgRead p addr { s with status := status, result := result }) := by
  have hword (m : Memory) (off : Nat) :
      Effect.HostAlike (readBufferWord m off s) (readBufferWord m off { s with status := status, result := result }) := by
    unfold readBufferWord
    cases m.readWord off with
    | none => exact .inl ⟨rfl, rfl⟩
    | some w => exact Effect.hostAlike_next (State.hostAlike_with _ _ _ rfl)
  unfold cfgRead
  cases targetOf addr with
  | misaligned => exact Effect.hostAlike_next (State.hostAlike_with _ _ _ rfl)
  | rxWindow off => exact hword _ off
  | txWindow off => exact hword _ off
  | register r => exact Effect.hostAlike_next (State.hostAlike_with _ _ _ (by simp))
  | unmapped => exact Effect.hostAlike_next (State.hostAlike_with _ _ _ rfl)

/-- A command write does not depend on STATUS or RESULT (R52, R266). -/
theorem executeCommand_hostAlike (w : Word) (status : Status) (result : Result) :
    Effect.HostAlike (executeCommand p w s) (executeCommand p w { s with status := status, result := result }) := by
  unfold executeCommand
  split
  · exact rxFrame_hostAlike status result
  · exact txSend_hostAlike status result
  · exact txBuild_hostAlike status result
  · exact Effect.hostAlike_next (State.hostAlike_with _ _ _ rfl)
  · exact Effect.hostAlike_next (State.hostAlike_with _ _ _ rfl)
  · exact Effect.hostAlike_next (State.hostAlike_with _ _ _ rfl)

/-- A CFG_WRITE does not depend on STATUS or RESULT (R52, R261). -/
theorem cfgWrite_hostAlike (strb : BitVec 4) (addr : CfgAddr) (wdata : Word) (status : Status) (result : Result) :
    Effect.HostAlike (cfgWrite p strb addr wdata s)
      (cfgWrite p strb addr wdata { s with status := status, result := result }) := by
  unfold cfgWrite
  cases targetOf addr with
  | register r =>
    by_cases hs : strb = 0xF
    · simp only [if_pos hs]
      cases r with
      | cmd => exact executeCommand_hostAlike wdata status result
      | _ => exact Effect.hostAlike_next (State.hostAlike_with _ _ _ rfl)
    · simp only [if_neg hs]
      exact Effect.hostAlike_next (State.hostAlike_with _ _ _ rfl)
  | _ => exact Effect.hostAlike_next (State.hostAlike_with _ _ _ rfl)

/-- No instruction depends on STATUS or RESULT (R52). -/
theorem exec_hostAlike (i : Instr) (s : State) (status : Status) (result : Result) :
    Effect.HostAlike (exec i s) (exec i { s with status := status, result := result }) := by
  cases i with
  | cfgRead strb addr => exact cfgRead_hostAlike addr status result
  | cfgWrite strb addr wdata => exact cfgWrite_hostAlike strb addr wdata status result
  | rxFrame n => exact rxFrame_hostAlike status result
  | txSend proto n => exact txSend_hostAlike status result
  | txBuild mf proto n => exact txBuild_hostAlike status result

/-! The obligations -/

/-- Settles O37: the three commands have one frame; they differ in STATUS and ID_NEXT. -/
theorem commandsChangeOnlyOutputs : Obligations.CommandsChangeOnlyOutputs := by
  intro i s t e hi
  have hgrows := exec_trace_grows e
  have hkept := (exec_setsAndCounts e).status
  have hframe : s.CommandFrame t := by
    rcases hi with ⟨_, rfl⟩ | ⟨_, _, rfl⟩ | ⟨_, _, _, rfl⟩
    · exact rxFrame_frame e
    · exact txSend_frame e
    · exact txBuild_frame e
  refine ⟨hframe.ctrlReg, hframe.hostIp, hframe.txDst, hframe.buildArg, hframe.responses, hframe.host,
    fun a => ⟨by rw [hframe.rxbuf], by rw [hframe.txbuf]⟩, hgrows, hframe.busErr, hkept.cmdErr, hkept.hdrOverrun,
    hkept.stripUnderflow, ?_, ?_, fun hnot => ?_⟩
  · rintro ⟨_, _, rfl⟩
    exact (txSend_status_idNext e).1
  · rintro ⟨_, _, _, rfl⟩
    exact txBuild_status e
  · rcases hi with ⟨_, rfl⟩ | hsend | ⟨_, _, _, rfl⟩
    · exact (rxFrame_status_idNext e).2
    · exact absurd hsend hnot
    · exact (txBuild_status_idNext e).2

/-- Settles O38: each command's ends write their own RESULT, and a send has far fewer than 65536 frames. -/
theorem commandResults : Obligations.CommandResults :=
  ⟨fun _ _ _ e => rxFrame_result e, fun _ len _ _ e => txSend_result admitted_ipv4core (Nat.le_of_lt_succ len.isLt) e,
    fun _ _ _ _ _ e => txBuild_result e⟩

/-- Settles O44: no operation reads STATUS or RESULT but to hand them over as a word. -/
theorem statusAndResultSteerNothing : Obligations.StatusAndResultSteerNothing := by
  intro i s status result
  rcases exec_hostAlike i s status result with ⟨hfault, hfault'⟩ | ⟨t, u, ht, hu, hsame, hhost, hresponses⟩
  · rw [hfault, hfault']
    exact ⟨fun _ h => (nomatch h), fun _ => id⟩
  · rw [ht, hu]
    refine ⟨fun t' h => ?_, fun _ h => nomatch h⟩
    cases h
    exact ⟨u, rfl, hsame, hhost, hresponses⟩

end Sys2Proof.Machine
end

section
/-! PROOF. The invariants of the machine (R35 to R38, R49 to R51, R120 to R122): each holds after reset, and an access and the
three commands keep it, so that every step does. -/

namespace Sys2Proof.Machine

variable {s t : State} {i : Instr} {n len : Nat} {proto : Byte} {mf : Bool}

/-- A predicate that does not look at the host's moves, holds after reset and is kept by every instruction is kept by every step. -/
theorem step_keeps {I : State → Prop} (hhost : ∀ s rest, I s → I { s with host := rest }) (hreset : I State.reset)
    (hexec : ∀ {i s t}, I s → exec i s = .next t → I t) (hs : I s) (e : step s = .next t) : I t := by
  rcases step_cases e with ⟨-, rfl⟩ | ⟨rest, -, rfl⟩ | ⟨request, wdata, rest, -, e⟩
  · exact hs
  · exact hhost State.reset rest hreset
  · exact hexec (hhost s rest hs) e

/-! The buffers -/

theorem reset_buffersWf : State.reset.buffersWf := ⟨Memory.wf_nil, Memory.wf_nil⟩

/-- An access stores inside a buffer or leaves both alone (R263). -/
theorem State.Accessed.buffersWf (h : s.Accessed t) (hs : s.buffersWf) : t.buffersWf := by
  obtain ⟨hrx, htx⟩ := hs
  cases h with
  | rxStore off wdata strb hoff => exact ⟨Memory.wf_writeStrobed _ _ hrx hoff, htx⟩
  | txStore off wdata strb hoff => exact ⟨hrx, Memory.wf_writeStrobed _ _ htx hoff⟩
  | _ => exact ⟨hrx, htx⟩

theorem State.CommandFrame.buffersWf (h : s.CommandFrame t) (hs : s.buffersWf) : t.buffersWf := by
  rw [State.buffersWf, h.rxbuf, h.txbuf]
  exact hs

/-- Every instruction keeps both buffers in canonical form (R49, R50). -/
theorem exec_keeps_buffersWf (hs : s.buffersWf) (e : exec i s = .next t) : t.buffersWf :=
  exec_related (R := fun _ t => t.buffersWf) (fun h => h.buffersWf hs) (fun e => (rxFrame_frame e).buffersWf hs)
    (fun _ e => (txSend_frame e).buffersWf hs) (fun e => (txBuild_frame e).buffersWf hs) e

/-! The trace -/

theorem reset_traceWf : State.reset.traceWf := fun _ hr => nomatch hr

/-- A well-formed record emitted. -/
theorem State.emit_traceWf {r : Record} (hs : s.traceWf) (hr : r.wf Config.ipv4core) : (s.emit r).traceWf := by
  intro r' hr'
  rcases List.mem_append.1 hr' with hold | hnew
  · exact hs r' hold
  · rw [List.mem_singleton.1 hnew]
    exact hr

section Received

/-! Steps 6 and 7, on the first 20 bytes `f` and the declared datagram `d` of RXBUF -/

variable {f d : List Byte} (hd : s.rxbuf.readRange 0 (parseHeader f).datagramLen = some d)
include hd

/-- The dispatch of a datagram without its header of at least 20 bytes is a well-formed record (R121). -/
theorem dispatch_wf (hvalid : (parseHeader f).invalid n = false) :
    (Record.disp (parseHeader f).proto (parseHeader f).src (d.drop (parseHeader f).headerLen)).wf Config.ipv4core := by
  obtain ⟨-, -, -, hhead⟩ := (parseHeader_invalid f n).1 hvalid
  have hlen : d.length ≤ 65535 := (Memory.readRange_length hd).trans_le (parseHeader f).datagramLen_le
  show (d.drop (parseHeader f).headerLen).length ≤ 65515
  rw [List.length_drop, parseHeader_headerLen]
  omega

variable (hf : s.rxbuf.readRange 0 20 = some f)
include hf

/-- A datagram of at least 20 bytes begins with the header that step 2 parsed (R180). -/
theorem parseHeader_datagram (h20 : 20 ≤ d.length) : parseHeader d = parseHeader f := by
  have hlen : d.length = (parseHeader f).datagramLen := Memory.readRange_length hd
  have htake : d.take 20 = f := Option.some.inj ((Memory.readRange_take hd (hlen ▸ h20)).symm.trans hf)
  rw [← parseHeader_take d (Nat.le_refl 20), htake]

/-- The notification of step 6 is a well-formed record (R122, R182). -/
theorem rxNotify_traceWf (hs : s.traceWf) : (rxNotify Config.ipv4core (parseHeader f) d s).traceWf := by
  have hlen : d.length ≤ 65535 := (Memory.readRange_length hd).trans_le (parseHeader f).datagramLen_le
  cases hsupported : supportedProto Config.ipv4core (parseHeader f).proto with
  | true => rwa [rxNotify_supported hsupported]
  | false =>
    rw [rxNotify_unsupported hsupported]
    refine State.emit_traceWf hs ⟨rfl, hlen, fun h20 => ?_⟩
    have hparse := parseHeader_datagram hd hf h20
    have hproto : byteAt d 9 = (parseHeader f).proto := congrArg InboundHeader.proto hparse
    exact ⟨congrArg InboundHeader.src hparse, by rw [hproto, hsupported]⟩

end Received

/-- RX_FRAME appends well-formed records (R121, R122). -/
theorem rxFrame_traceWf (hs : s.traceWf) (e : rxFrame Config.ipv4core n s = .next t) : t.traceWf := by
  rcases rxFrame_outcomes e with ⟨-, rfl⟩ | ⟨-, ⟨_, -, rfl⟩ | rfl | ⟨f, d, hf, hd, hvalid, ⟨-, rfl⟩ | ⟨-, rfl⟩⟩⟩
  · exact hs
  · exact hs
  · exact hs
  · exact rxNotify_traceWf hd hf hs
  · exact State.emit_traceWf (rxNotify_traceWf hd hf hs) (dispatch_wf hd hvalid)

/-- TX_SEND appends well-formed records (R120). -/
theorem txSend_traceWf (hs : s.traceWf) (hlen : len ≤ 65535) (e : txSend Config.ipv4core proto len s = .next t) : t.traceWf := by
  obtain ⟨frames, rfl, -, hframes⟩ := txSend_emits admitted_ipv4core hlen e
  exact fun r hr => (List.mem_append.1 hr).elim (hs r) fun hnew => (hframes r hnew).1

/-- TX_BUILD appends a well-formed record or none (R120). -/
theorem txBuild_traceWf (hs : s.traceWf) (e : txBuild Config.ipv4core mf proto len s = .next t) : t.traceWf := by
  rcases txBuild_emits admitted_ipv4core e with rfl | ⟨r, rfl, hr⟩
  · exact hs
  · exact State.emit_traceWf hs hr.1

/-- Every instruction keeps the records well-formed (R120 to R122). -/
theorem exec_keeps_traceWf (hs : s.traceWf) (e : exec i s = .next t) : t.traceWf :=
  exec_related (R := fun _ t => t.traceWf) (fun h => by rw [State.traceWf, h.trace]; exact hs) (rxFrame_traceWf hs)
    (txSend_traceWf hs) (txBuild_traceWf hs) e

/-! RESULT -/

/-- RESULT is consistent and recorded in STATUS (R37, R38). -/
def State.resultOk (s : State) : Prop := s.result.wf ∧ s.resultRecorded

theorem reset_resultOk : State.reset.resultOk := by
  unfold State.resultOk
  decide

/-- A RESULT with COUNT 0 that is not TX_BUILT, and no fault or rejection, agrees with every STATUS. -/
theorem State.finish_resultOk {c : ResultCode}
    (hc : c ∉ [ResultCode.txBuilt, .faultHdrOverrun, .faultStripUnderflow, .cmdRejected]) : (s.finish c 0).resultOk := by
  simp only [List.mem_cons, List.not_mem_nil, or_false, not_or] at hc
  obtain ⟨hbuilt, hover, hstrip, hrejected⟩ := hc
  exact ⟨⟨fun _ => Nat.zero_le _, fun h => absurd h hbuilt, fun _ _ => rfl⟩, fun h => absurd h hover, fun h => absurd h hstrip,
    fun h => absurd h hrejected⟩

theorem State.reject_resultOk : s.reject.resultOk := by
  simp [State.resultOk, Result.wf, State.resultRecorded]

theorem State.raiseFault_resultOk (k : HwFault) : (s.raiseFault k).resultOk := by
  cases k <;> simp [State.resultOk, Result.wf, State.resultRecorded]

/-- An access leaves RESULT and the three bits it names alone, or rejects a command word (R262, R266). -/
theorem State.Accessed.resultOk (h : s.Accessed t) (hs : s.resultOk) : t.resultOk := by
  cases h with
  | illegalCommand => exact State.reject_resultOk
  | _ => exact hs

/-- RX_FRAME leaves a code with COUNT 0, and sets the bit of the fault or rejection it names (R38, R300). -/
theorem rxFrame_resultOk (e : rxFrame Config.ipv4core n s = .next t) : t.resultOk := by
  rcases rxFrame_outcomes e with ⟨-, rfl⟩ | ⟨-, ⟨c, hc, rfl⟩ | rfl | ⟨f, _, -, -, -, ⟨-, rfl⟩ | ⟨-, rfl⟩⟩⟩
  · exact State.reject_resultOk
  · refine State.finish_resultOk ?_
    simp only [List.mem_cons, List.not_mem_nil, or_false] at hc
    rcases hc with rfl | rfl | rfl | rfl <;> decide
  · exact State.raiseFault_resultOk _
  · exact State.raiseFault_resultOk _
  · refine State.finish_resultOk ?_
    unfold rxDoneCode
    split <;> decide

/-- TX_SEND leaves TX_SENT with at most 8192 frames (R240). -/
theorem txSend_resultOk (hlen : len ≤ 65535) (e : txSend Config.ipv4core proto len s = .next t) : t.resultOk := by
  obtain ⟨frames, rfl, hcount, -⟩ := txSend_emits admitted_ipv4core hlen e
  have hfits : (BitVec.ofNat 16 frames.length).toNat = frames.length := Nat.mod_eq_of_lt (by omega)
  simp [State.resultOk, Result.wf, State.resultRecorded, hfits, hcount]

/-- TX_BUILD leaves TX_BUILT with one frame, or a rejection (R212, R213). -/
theorem txBuild_resultOk (e : txBuild Config.ipv4core mf proto len s = .next t) : t.resultOk := by
  rcases txBuild_emits admitted_ipv4core e with rfl | ⟨r, rfl, -⟩
  · exact State.reject_resultOk
  · simp [State.resultOk, Result.wf, State.resultRecorded]

/-- Every instruction keeps RESULT consistent and recorded (R37, R38). -/
theorem exec_keeps_resultOk (hs : s.resultOk) (e : exec i s = .next t) : t.resultOk :=
  exec_related (R := fun _ t => t.resultOk) (fun h => h.resultOk hs) rxFrame_resultOk txSend_resultOk txBuild_resultOk e

/-! Registration first -/

theorem reset_registeredFirst : State.reset.registeredFirst := fun _ => ⟨fun _ hr => (nomatch hr), by decide⟩

/-- An access sets REG or leaves it, the trace and the fault bits alone (R35). -/
theorem State.Accessed.registeredFirst (h : s.Accessed t) (hs : s.registeredFirst) : t.registeredFirst := by
  cases h with
  | ctrl b => exact fun hreg => hs (Bool.or_eq_false_iff.1 hreg).1
  | _ => exact hs

/-- Before registration RX_FRAME is rejected, which records no fault (R171). -/
theorem rxFrame_registeredFirst (hs : s.registeredFirst) (e : rxFrame Config.ipv4core n s = .next t) : t.registeredFirst := by
  intro hreg
  have hunregistered : s.ctrlReg = false := (rxFrame_ctrlReg e).symm.trans hreg
  rw [rxFrame_unregistered hunregistered] at e
  cases e
  exact hs hunregistered

/-- TX_SEND emits nothing inbound (R230). -/
theorem txSend_registeredFirst (hs : s.registeredFirst) (hlen : len ≤ 65535) (e : txSend Config.ipv4core proto len s = .next t) :
    t.registeredFirst := by
  obtain ⟨frames, rfl, -, hframes⟩ := txSend_emits admitted_ipv4core hlen e
  intro hreg
  obtain ⟨hold, hfault⟩ := hs hreg
  exact ⟨fun r hr => (List.mem_append.1 hr).elim (hold r) fun hnew => (hframes r hnew).2, hfault⟩

/-- TX_BUILD emits nothing inbound (R212). -/
theorem txBuild_registeredFirst (hs : s.registeredFirst) (e : txBuild Config.ipv4core mf proto len s = .next t) :
    t.registeredFirst := by
  rcases txBuild_emits admitted_ipv4core e with rfl | ⟨r, rfl, hr⟩
  · exact hs
  · intro hreg
    obtain ⟨hold, hfault⟩ := hs hreg
    exact ⟨fun r' hr' => (List.mem_append.1 hr').elim (hold r') fun hnew => List.mem_singleton.1 hnew ▸ hr.2, hfault⟩

/-- Every instruction keeps registration first (R35, R171). -/
theorem exec_keeps_registeredFirst (hs : s.registeredFirst) (e : exec i s = .next t) : t.registeredFirst :=
  exec_related (R := fun _ t => t.registeredFirst) (fun h => h.registeredFirst hs) (rxFrame_registeredFirst hs)
    (txSend_registeredFirst hs) (txBuild_registeredFirst hs) e

/-! The obligations -/

/-- Settles O49: of all operations CFG_WRITE alone stores in a buffer, at an offset that the address decode keeps inside it. -/
theorem stepKeepsBuffersCanonical : Obligations.StepKeepsBuffersCanonical :=
  fun _ _ => step_keeps (fun _ _ => id) reset_buffersWf exec_keeps_buffersWf

/-- Settles O50: RX_FRAME's records come from a datagram that begins with the header parsed, and the TX commands' from
BUILD_FRAME. -/
theorem stepKeepsTraceWellFormed : Obligations.StepKeepsTraceWellFormed :=
  fun _ _ => step_keeps (fun _ _ => id) reset_traceWf exec_keeps_traceWf

/-- Settles O51: whatever writes RESULT writes a consistent one, with the STATUS bit it names. -/
theorem stepKeepsResultRecorded : Obligations.StepKeepsResultRecorded :=
  fun _ _ hwf hrecorded => step_keeps (I := State.resultOk) (fun _ _ => id) reset_resultOk exec_keeps_resultOk ⟨hwf, hrecorded⟩

/-- Settles O52: RX_FRAME alone emits inbound records and raises faults, and only once registered. -/
theorem stepKeepsRegistrationFirst : Obligations.StepKeepsRegistrationFirst :=
  fun _ _ => step_keeps (fun _ _ => id) reset_registeredFirst exec_keeps_registeredFirst

/-- Settles O53: the buffers and the trace are empty, and RESULT names nothing. -/
theorem invariantsHoldAtReset : Obligations.InvariantsHoldAtReset :=
  ⟨reset_buffersWf, reset_traceWf, reset_resultOk.1, reset_resultOk.2, reset_registeredFirst⟩

end Sys2Proof.Machine
end

section
/-! PROOF. LOADRX and LOADTX (R131, R263): the write of one word of a window as a step, and the writes of a byte sequence in
turn. -/

namespace Sys2Proof.Machine

variable {s s' : State} {rest : List HostEvent} {o : Nat}

/-! The two windows -/

/-- A buffer window of the CFG map (R81). -/
inductive Window where
  | rx
  | tx

/-- The CFG address of a window's first byte (R81). -/
def Window.base : Window → Nat
  | .rx => 0x10000
  | .tx => 0x20000

/-- The buffer behind a window (R49, R50). -/
def Window.buffer (s : State) : Window → Memory
  | .rx => s.rxbuf
  | .tx => s.txbuf

/-- The state with another buffer behind a window. -/
def Window.setBuffer (s : State) (m : Memory) : Window → State
  | .rx => { s with rxbuf := m }
  | .tx => { s with txbuf := m }

@[simp] theorem Window.buffer_setBuffer (w : Window) (s : State) (m : Memory) : w.buffer (w.setBuffer s m) = m := by
  cases w <;> rfl

@[simp] theorem Window.setBuffer_host (w : Window) (s : State) (m : Memory) : (w.setBuffer s m).host = s.host := by
  cases w <;> rfl

/-! One write as a step -/

/-- The address of a word of a window. -/
theorem Window.address_toNat (w : Window) (ho : o + 3 < 65536) : (BitVec.ofNat 20 (w.base + o)).toNat = w.base + o := by
  rw [BitVec.toNat_ofNat]
  apply Nat.mod_eq_of_lt
  cases w <;> simp only [Window.base] <;> omega

/-- A write in a window stores in the buffer behind it (R263). -/
theorem Window.exec_store (w : Window) (hmod : o % 4 = 0) (ho : o + 3 < 65536) (strb : BitVec 4) (wdata : Word) (s : State) :
    exec (.cfgWrite strb (BitVec.ofNat 20 (w.base + o)) wdata) s
      = .next (w.setBuffer s ((w.buffer s).writeStrobed o wdata strb)) := by
  have haddr := w.address_toNat ho
  rw [exec_cfgWrite]
  cases w with
  | rx =>
    simp only [Window.base] at haddr ⊢
    rw [cfgWrite_rxWindow (by omega) (by omega) (by omega), haddr, Nat.add_sub_cancel_left]
    rfl
  | tx =>
    simp only [Window.base] at haddr ⊢
    rw [cfgWrite_txWindow (by omega) (by omega) (by omega), haddr, Nat.add_sub_cancel_left]
    rfl

/-- `WR` in a window, as the host's next move, stores in the buffer behind it (R130, R263). -/
theorem Window.step_asmWr (w : Window) (hmod : o % 4 = 0) (ho : o + 3 < 65536) {strb : BitVec 4} {wdata : Word}
    (hhost : s.host = asmWr (BitVec.ofNat 20 (w.base + o)) wdata strb :: rest) :
    step s = .next (w.setBuffer { s with host := rest } ((w.buffer s).writeStrobed o wdata strb)) := by
  have hwf : (Instr.cfgWrite strb (BitVec.ofNat 20 (w.base + o)) wdata).wellFormed = true := by
    have haddr := w.address_toNat ho
    have hne : BitVec.ofNat 20 (w.base + o) ≠ cmdAddr := by
      rw [← BitVec.toNat_inj.ne, haddr]
      cases w <;> simp only [Window.base, cmdAddr] <;> simp <;> omega
    simp [Instr.wellFormed, hne]
  have hencoded := decodeRequest_encode hwf
  rw [step_cfg hhost]
  rw [show decodeRequest (encodeRequest true strb (BitVec.ofNat 20 (w.base + o))) wdata = _ from hencoded,
    w.exec_store hmod ho]
  cases w <;> rfl

/-- A run whose first step answers a next state goes on from there. -/
theorem run_succ_of_step (h : step s = .next s') (k : Nat) : core.run (k + 1) s = core.run k s' := by
  simp only [Host.Core.run]
  rw [show core.step s = .next s' from h]

/-! The writes of a byte sequence -/

/-- `m` holds `bytes` from `o` on, and elsewhere what `old` holds. -/
def Memory.Loaded (old m : Memory) (o : Nat) (bytes : List Byte) : Prop :=
  ∀ a, m.read a = if o ≤ a ∧ a < o + bytes.length then bytes[a - o]? else old.read a

/-- Nothing loaded. -/
theorem Memory.loaded_nil (m : Memory) (o : Nat) : Memory.Loaded m m o [] := by
  intro a
  rw [if_neg (by simp)]

/-- Bytes loaded after the ones before them. -/
theorem Memory.Loaded.append {old m m' : Memory} {xs ys : List Byte} (hxs : Memory.Loaded old m o xs)
    (hys : Memory.Loaded m m' (o + xs.length) ys) : Memory.Loaded old m' o (xs ++ ys) := by
  intro a
  rw [hys a, hxs a, List.length_append, ← Nat.add_assoc]
  by_cases hlater : o + xs.length ≤ a
  · rw [if_neg (show ¬ (o ≤ a ∧ a < o + xs.length) by omega), List.getElem?_append_right (by omega), Nat.sub_sub]
    exact if_congr (by omega) rfl rfl
  · rw [if_neg (show ¬ (o + xs.length ≤ a ∧ a < o + xs.length + ys.length) by omega)]
    by_cases hin : o ≤ a
    · rw [if_pos ⟨hin, by omega⟩, if_pos ⟨hin, by omega⟩, List.getElem?_append_left (by omega)]
    · rw [if_neg (by omega), if_neg (by omega)]

/-- Loaded bytes are read back as a range. -/
theorem Memory.Loaded.readRange {old m : Memory} {bytes : List Byte} (h : Memory.Loaded old m o bytes) :
    m.readRange o bytes.length = some bytes := by
  refine Memory.readRange_eq_some_iff.2 ⟨rfl, fun i hi => ?_⟩
  rw [h (o + i), if_pos (by omega), Nat.add_sub_cancel_left, List.getElem?_eq_getElem hi]

/-- Outside the loaded bytes the buffer is as it was. -/
theorem Memory.Loaded.outside {old m : Memory} {bytes : List Byte} (h : Memory.Loaded old m o bytes) {a : Nat}
    (ha : a < o ∨ o + bytes.length ≤ a) : m.read a = old.read a := by
  rw [h a, if_neg (by omega)]

/-- The lanes of a data word are its four bytes (R73). -/
theorem lane_wordOfLanes (b0 b1 b2 b3 : Byte) {k : Nat} (hk : k < 4) :
    some (lane (wordOfLanes b0 b1 b2 b3) k) = [b0, b1, b2, b3][k]? := by
  have h0 := b0.isLt
  have h1 := b1.isLt
  have h2 := b2.isLt
  have h3 := b3.isLt
  interval_cases k <;>
    simp only [List.getElem?_cons_zero, List.getElem?_cons_succ, Option.some.injEq, ← BitVec.toNat_inj, lane, field_toNat,
      wordOfLanes_toNat] <;>
    omega

/-- A word written with the strobe of its first `n` lanes loads these bytes (R263). -/
theorem Memory.loaded_writeStrobed (m : Memory) (o : Nat) (b0 b1 b2 b3 : Byte) {n : Nat} {strb : BitVec 4} (hn : n ≤ 4)
    (hstrb : ∀ k < 4, strb.getLsbD k = decide (k < n)) :
    Memory.Loaded m (m.writeStrobed o (wordOfLanes b0 b1 b2 b3) strb) o ([b0, b1, b2, b3].take n) := by
  have hlen : ([b0, b1, b2, b3].take n).length = n := List.length_take_of_le hn
  intro a
  rw [hlen]
  by_cases hin : o ≤ a ∧ a < o + n
  · obtain ⟨k, rfl⟩ := Nat.exists_eq_add_of_le hin.1
    have hk : k < n := by omega
    rw [if_pos hin, Nat.add_sub_cancel_left, List.getElem?_take_of_lt hk, ← lane_wordOfLanes b0 b1 b2 b3 (by omega)]
    exact Memory.read_writeStrobed_strobed m o _ (by omega) (by rw [hstrb k (by omega)]; exact decide_eq_true hk)
  · rw [if_neg hin]
    refine Memory.read_writeStrobed_unstrobed m _ fun k hk hs => ?_
    rw [hstrb k hk] at hs
    have := of_decide_eq_true hs
    omega

/-- The write of up to four bytes, as the host's next move, loads them (R131). -/
theorem Window.step_load (w : Window) (hmod : o % 4 = 0) (ho : o + 3 < 65536) {b0 b1 b2 b3 : Byte} {n : Nat} {strb : BitVec 4}
    (hn : n ≤ 4) (hstrb : ∀ k < 4, strb.getLsbD k = decide (k < n))
    (hhost : s.host = asmWr (BitVec.ofNat 20 (w.base + o)) (wordOfLanes b0 b1 b2 b3) strb :: rest) :
    ∃ m, step s = .next (w.setBuffer { s with host := rest } m)
      ∧ Memory.Loaded (w.buffer s) m o ([b0, b1, b2, b3].take n) :=
  ⟨_, w.step_asmWr hmod ho hhost, Memory.loaded_writeStrobed _ o b0 b1 b2 b3 hn hstrb⟩

/-- Running the writes of a byte sequence loads it, and changes nothing else (R131). -/
theorem Window.run_asmLoad (w : Window) (bytes : List Byte) {o : Nat} {s : State} (hmod : o % 4 = 0)
    (hfits : o + bytes.length ≤ 65536) (hhost : s.host = asmLoad (w.base + o) bytes ++ rest) :
    ∃ m, core.run (asmLoad (w.base + o) bytes).length s = .next (w.setBuffer { s with host := rest } m)
      ∧ Memory.Loaded (w.buffer s) m o bytes := by
  match bytes with
  | [] =>
    refine ⟨w.buffer s, ?_, Memory.loaded_nil _ _⟩
    cases hhost
    cases w <;> rfl
  | [b0] =>
    obtain ⟨m, hstep, hloaded⟩ := w.step_load hmod (by simp at hfits; omega) (n := 1) (by decide) (by decide) hhost
    exact ⟨m, run_succ_of_step hstep 0, hloaded⟩
  | [b0, b1] =>
    obtain ⟨m, hstep, hloaded⟩ := w.step_load hmod (by simp at hfits; omega) (n := 2) (by decide) (by decide) hhost
    exact ⟨m, run_succ_of_step hstep 0, hloaded⟩
  | [b0, b1, b2] =>
    obtain ⟨m, hstep, hloaded⟩ := w.step_load hmod (by simp at hfits; omega) (n := 3) (by decide) (by decide) hhost
    exact ⟨m, run_succ_of_step hstep 0, hloaded⟩
  | b0 :: b1 :: b2 :: b3 :: more =>
    simp only [List.length_cons] at hfits
    have hnext : s.host = asmWr (BitVec.ofNat 20 (w.base + o)) (wordOfLanes b0 b1 b2 b3) 0xF
        :: (asmLoad (w.base + (o + 4)) more ++ rest) := hhost
    obtain ⟨m, hstep, hword⟩ := w.step_load hmod (by omega) (n := 4) (by decide) (by decide) hnext
    obtain ⟨m', hrun, hmore⟩ := w.run_asmLoad more (o := o + 4)
      (s := w.setBuffer { s with host := asmLoad (w.base + (o + 4)) more ++ rest } m) (by omega) (by omega) (w.setBuffer_host _ m)
    rw [Window.buffer_setBuffer] at hmore
    exact ⟨m', ((run_succ_of_step hstep _).trans hrun).trans (by cases w <;> rfl), hword.append hmore⟩

/-! The obligation -/

/-- Settles O54: LOADRX and LOADTX are the writes of a byte sequence in the two windows. -/
theorem loadPlacesBytes : Obligations.LoadPlacesBytes := by
  intro off bytes s rest hmod hfits
  refine ⟨fun hhost => ?_, fun hhost => ?_⟩
  · obtain ⟨m, hrun, hloaded⟩ := Window.rx.run_asmLoad bytes hmod hfits hhost
    exact ⟨m, hrun, hloaded.readRange, fun _ => hloaded.outside⟩
  · obtain ⟨m, hrun, hloaded⟩ := Window.tx.run_asmLoad bytes hmod hfits hhost
    exact ⟨m, hrun, hloaded.readRange, fun _ => hloaded.outside⟩

end Sys2Proof.Machine
end
